-- ==== Sys2Proof/Word.lean ====
section
/-! DEFINITION. The value types of KZCORE: bytes, the 32-bit command word, the 16-byte block, and the numbers that
name a block register or a byte position (spec/00_scope.md R7, R8; spec/10_state.md R11; spec/30_encoding.md R51). -/

namespace Sys2Proof

/-- R7: "A byte is an unsigned 8-bit value 0..255." -/
abbrev Byte := BitVec 8

/-- R50, R51: a command is one 32-bit word, bit 31 the most significant. -/
abbrev Word := BitVec 32

/-- R8, R70: a block is a sequence of exactly 16 bytes; byte 0 is the one its text form writes first. -/
abbrev Block := Vector Byte 16

/-- R11: a register field names one of the four block registers `B0..B3` by the numbers 0..3. -/
abbrev Reg := Fin 4

/-- R30: a byte position inside a block, or a row or column of a 16x16 matrix: 0..15. -/
abbrev Pos := Fin 16

/-- R20: a 16x16 byte matrix over GF(2^8), row by row: `A[k][i]` is row `k`, column `i`. -/
abbrev Matrix := Vector Block 16

/-- R19: the 256x256 multiplication table. -/
abbrev MulTable := Vector (Vector Byte 256) 256

/-- R21: a fused table, indexed by byte position and byte value, each entry a 16-byte vector. -/
abbrev FusedTable := Vector (Vector Block 256) 16

end Sys2Proof
end

