-- ==== Sys2Proof/Syntax.lean ====
section
/-! DEFINITION. The 29 commands of command set KZC-1, one constructor per row of spec/opcode_table.json
(spec/30_encoding.md R52 to R54). The operands are the fields of R53 as they stand, in assembler order. Three commands
have operand values that no legal word carries (R57, R58): Sys2Proof/WellFormed.lean says which. -/

namespace Sys2Proof

/-- R54: a command with its operands. -/
inductive Instr where
  /-- `INIT`: generate the tables (R128). -/
  | init
  /-- `SETKEY ra, rb`: expand the key K1 = `B[ra]`, K2 = `B[rb]` (R154). -/
  | setkey (ra rb : Reg)
  /-- `ENC rd`: encrypt `B[rd]` in place (R161). -/
  | enc (rd : Reg)
  /-- `DEC rd`: decrypt `B[rd]` in place (R163). -/
  | dec (rd : Reg)
  /-- `SETB rd, idx, imm8`: write byte `idx` of `B[rd]` (R72). -/
  | setb (rd : Reg) (idx : Pos) (imm8 : Byte)
  /-- `GETB rs, idx`: `GR` from byte `idx` of `B[rs]` (R73). -/
  | getb (rs : Reg) (idx : Pos)
  /-- `XOR rd, rs`: bytewise XOR into `B[rd]` (R71). -/
  | xor (rd rs : Reg)
  /-- `GFMUL a, b`: `GR` from the multiplication table (R85). -/
  | gfmul (a b : Byte)
  /-- `PI imm8`: `GR` from the S-box (R94). -/
  | pi (imm8 : Byte)
  /-- `PIINV imm8`: `GR` from the inverse S-box (R95). -/
  | piinv (imm8 : Byte)
  /-- `S rd, rs` (R96). -/
  | s (rd rs : Reg)
  /-- `SINV rd, rs` (R97). -/
  | sinv (rd rs : Reg)
  /-- `R rd, rs` (R106). -/
  | r (rd rs : Reg)
  /-- `RINV rd, rs` (R107). -/
  | rinv (rd rs : Reg)
  /-- `L rd, rs` (R108). -/
  | l (rd rs : Reg)
  /-- `LINV rd, rs` (R109). -/
  | linv (rd rs : Reg)
  /-- `MATL rd, rs` (R129). -/
  | matl (rd rs : Reg)
  /-- `MATLI rd, rs` (R130). -/
  | matli (rd rs : Reg)
  /-- `GETL k, i`: `GR` from row `k`, column `i` of `LMAT` (R131). -/
  | getl (k i : Pos)
  /-- `GETLI k, i`: `GR` from row `k`, column `i` of `LINV` (R132). -/
  | getli (k i : Pos)
  /-- `GETTE i, v, k`: `GR` from byte `k` of entry `[i][v]` of `T_ENC` (R133). -/
  | gette (i : Pos) (v : Byte) (k : Pos)
  /-- `GETTD i, v, k`: the same of `T_DEC` (R134). -/
  | gettd (i : Pos) (v : Byte) (k : Pos)
  /-- `GETTI i, v, k`: the same of `T_DINV` (R135). -/
  | getti (i : Pos) (v : Byte) (k : Pos)
  /-- `LSENC rd, rs` (R141). -/
  | lsenc (rd rs : Reg)
  /-- `LSDEC rd, rs` (R142). -/
  | lsdec (rd rs : Reg)
  /-- `LDINV rd, rs` (R143). -/
  | ldinv (rd rs : Reg)
  /-- `RCON rd, imm8`: the round constant `C(imm8)` into `B[rd]` (R155). -/
  | rcon (rd : Reg) (imm8 : Byte)
  /-- `FSTEP ra, rb, rk`: one Feistel step on the pair `B[ra]`, `B[rb]` (R156). -/
  | fstep (ra rb rk : Reg)
  /-- `GETRK rd, idx`: round key `idx` into `B[rd]` (R157). -/
  | getrk (rd : Reg) (idx : Pos)
  deriving DecidableEq, Repr

end Sys2Proof
end

