-- ==== Sys2Proof/WellFormed.lean ====
section
/-! DEFINITION. The legality checks that the types of Sys2Proof/Syntax.lean do not already make: the index ranges of
spec/30_encoding.md R57 and the register overlap of R58. -/

namespace Sys2Proof

/-- R57, R58: the extra checks of R54's table; a command that fails one has no legal encoding. -/
def Instr.wellFormed : Instr → Bool
  | .init => true
  | .setkey _ _ => true
  | .enc _ => true
  | .dec _ => true
  | .setb _ _ _ => true
  | .getb _ _ => true
  | .xor _ _ => true
  | .gfmul _ _ => true
  | .pi _ => true
  | .piinv _ => true
  | .s _ _ => true
  | .sinv _ _ => true
  | .r _ _ => true
  | .rinv _ _ => true
  | .l _ _ => true
  | .linv _ _ => true
  | .matl _ _ => true
  | .matli _ _ => true
  | .getl _ _ => true
  | .getli _ _ => true
  | .gette _ _ _ => true
  | .gettd _ _ _ => true
  | .getti _ _ _ => true
  | .lsenc _ _ => true
  | .lsdec _ _ => true
  | .ldinv _ _ => true
  | .rcon _ imm8 => decide (1 ≤ imm8.toNat) && decide (imm8.toNat ≤ 32)
  | .fstep ra rb _ => decide (ra ≠ rb)
  | .getrk _ idx => decide (1 ≤ idx.val) && decide (idx.val ≤ 10)

end Sys2Proof
end

