-- ==== Sys2Proof/Decode.lean ====
section
/-! DEFINITION. The decoder, total on all 2^32 words and rejecting by name, and the encoder
(spec/30_encoding.md R50 to R60). Both are written from R51's field layout; the decoder reads R54's opcode map in the
order of checks that R60 gives. -/

namespace Sys2Proof

/-- R51: the six fields of a command word, most significant first. -/
structure Fields where
  op : BitVec 8
  rd : BitVec 4
  rs : BitVec 4
  rt : BitVec 4
  idx : BitVec 4
  imm8 : BitVec 8
  deriving DecidableEq, Repr

/-- R51, R53: every field is taken from the word as it stands. -/
def fieldsOf (w : Word) : Fields where
  op := w.extractLsb' 24 8
  rd := w.extractLsb' 20 4
  rs := w.extractLsb' 16 4
  rt := w.extractLsb' 12 4
  idx := w.extractLsb' 8 4
  imm8 := w.extractLsb' 0 8

/-- R51: `word = op<<24 | rd<<20 | rs<<16 | rt<<12 | idx<<8 | imm8`. -/
def wordOf (f : Fields) : Word :=
  f.op ++ (f.rd ++ (f.rs ++ (f.rt ++ (f.idx ++ f.imm8))))

/-- A register field read as the number of a block register; only 0..3 pass the mask of R54 (R56). -/
def regOf (f : BitVec 4) : Reg := Fin.ofNat 4 f.toNat

/-- R56: a plain 4-bit index, every value 0..15. -/
def posOf (f : BitVec 4) : Pos := Fin.ofNat 16 f.toNat

/-- R53: the two-field operand `a = rt*16 + idx` of `GFMUL`. -/
def byteOf (hi lo : BitVec 4) : Byte := hi ++ lo

/-- The register field of a block register. -/
def regField (r : Reg) : BitVec 4 := BitVec.ofNat 4 r.val

/-- The 4-bit field of a position. -/
def posField (p : Pos) : BitVec 4 := BitVec.ofNat 4 p.val

/-- The high half of a byte operand (R51, field `rt`). -/
def highHalf (b : Byte) : BitVec 4 := b.extractLsb' 4 4

/-- The low half of a byte operand (R51, field `idx`). -/
def lowHalf (b : Byte) : BitVec 4 := b.extractLsb' 0 4

/-- R54: one row of the opcode map. `build` reads the operands out of the fields (R53). -/
structure Row where
  opcode : Byte
  pattern : Word
  mask : Word
  build : Fields → Instr

/-- R54: the opcode map, its `match` and `mask` columns as they stand there. -/
def opcodeMap : List Row := [
  ⟨0x01, 0x01000000, 0xFFFFFFFF, fun _ => .init⟩,
  ⟨0x02, 0x02000000, 0xFFCCFFFF, fun f => .setkey (regOf f.rd) (regOf f.rs)⟩,
  ⟨0x03, 0x03000000, 0xFFCFFFFF, fun f => .enc (regOf f.rd)⟩,
  ⟨0x04, 0x04000000, 0xFFCFFFFF, fun f => .dec (regOf f.rd)⟩,
  ⟨0x10, 0x10000000, 0xFFCFF000, fun f => .setb (regOf f.rd) (posOf f.idx) f.imm8⟩,
  ⟨0x11, 0x11000000, 0xFFFCF0FF, fun f => .getb (regOf f.rs) (posOf f.idx)⟩,
  ⟨0x12, 0x12000000, 0xFFCCFFFF, fun f => .xor (regOf f.rd) (regOf f.rs)⟩,
  ⟨0x20, 0x20000000, 0xFFFF0000, fun f => .gfmul (byteOf f.rt f.idx) f.imm8⟩,
  ⟨0x30, 0x30000000, 0xFFFFFF00, fun f => .pi f.imm8⟩,
  ⟨0x31, 0x31000000, 0xFFFFFF00, fun f => .piinv f.imm8⟩,
  ⟨0x32, 0x32000000, 0xFFCCFFFF, fun f => .s (regOf f.rd) (regOf f.rs)⟩,
  ⟨0x33, 0x33000000, 0xFFCCFFFF, fun f => .sinv (regOf f.rd) (regOf f.rs)⟩,
  ⟨0x40, 0x40000000, 0xFFCCFFFF, fun f => .r (regOf f.rd) (regOf f.rs)⟩,
  ⟨0x41, 0x41000000, 0xFFCCFFFF, fun f => .rinv (regOf f.rd) (regOf f.rs)⟩,
  ⟨0x42, 0x42000000, 0xFFCCFFFF, fun f => .l (regOf f.rd) (regOf f.rs)⟩,
  ⟨0x43, 0x43000000, 0xFFCCFFFF, fun f => .linv (regOf f.rd) (regOf f.rs)⟩,
  ⟨0x44, 0x44000000, 0xFFCCFFFF, fun f => .matl (regOf f.rd) (regOf f.rs)⟩,
  ⟨0x45, 0x45000000, 0xFFCCFFFF, fun f => .matli (regOf f.rd) (regOf f.rs)⟩,
  ⟨0x46, 0x46000000, 0xFFFF00FF, fun f => .getl (posOf f.rt) (posOf f.idx)⟩,
  ⟨0x47, 0x47000000, 0xFFFF00FF, fun f => .getli (posOf f.rt) (posOf f.idx)⟩,
  ⟨0x50, 0x50000000, 0xFFFF0000, fun f => .gette (posOf f.rt) f.imm8 (posOf f.idx)⟩,
  ⟨0x51, 0x51000000, 0xFFFF0000, fun f => .gettd (posOf f.rt) f.imm8 (posOf f.idx)⟩,
  ⟨0x52, 0x52000000, 0xFFFF0000, fun f => .getti (posOf f.rt) f.imm8 (posOf f.idx)⟩,
  ⟨0x58, 0x58000000, 0xFFCCFFFF, fun f => .lsenc (regOf f.rd) (regOf f.rs)⟩,
  ⟨0x59, 0x59000000, 0xFFCCFFFF, fun f => .lsdec (regOf f.rd) (regOf f.rs)⟩,
  ⟨0x5A, 0x5A000000, 0xFFCCFFFF, fun f => .ldinv (regOf f.rd) (regOf f.rs)⟩,
  ⟨0x60, 0x60000000, 0xFFCFFF00, fun f => .rcon (regOf f.rd) f.imm8⟩,
  ⟨0x61, 0x61000000, 0xFFCCCFFF, fun f => .fstep (regOf f.rd) (regOf f.rs) (regOf f.rt)⟩,
  ⟨0x62, 0x62000000, 0xFFCFF0FF, fun f => .getrk (regOf f.rd) (posOf f.idx)⟩
]

/-- Why a word is not a legal encoding; every one of them is `IllegalCommand` (R59). -/
inductive Illegal where
  /-- R60 step 1: no row has the word's opcode. Raised by `decode`; the core faults on it, so nothing is executed: safe. -/
  | unassignedOpcode
  /-- R60 step 2: an unused field is not zero (R55) or a register field is above 3 (R56). Safe, as above. -/
  | maskMismatch
  /-- R60 step 3: an index is out of range (R57) or the two registers of `FSTEP` are one (R58). Safe, as above. -/
  | extraCheck
  deriving DecidableEq, Repr

/-- R60: decode a word, in the rule's order of checks. -/
def decode (w : Word) : Except Illegal Instr :=
  match opcodeMap.find? (fun row => row.opcode == (fieldsOf w).op) with
  | none => .error .unassignedOpcode
  | some row =>
    if w &&& row.mask = row.pattern then
      if (row.build (fieldsOf w)).wellFormed then .ok (row.build (fieldsOf w)) else .error .extraCheck
    else .error .maskMismatch

/-- R51 to R54: the fields of a command; a field its format does not use is zero (R55). -/
def fieldsOfInstr : Instr → Fields
  | .init => ⟨0x01, 0, 0, 0, 0, 0⟩
  | .setkey ra rb => ⟨0x02, regField ra, regField rb, 0, 0, 0⟩
  | .enc rd => ⟨0x03, regField rd, 0, 0, 0, 0⟩
  | .dec rd => ⟨0x04, regField rd, 0, 0, 0, 0⟩
  | .setb rd idx imm8 => ⟨0x10, regField rd, 0, 0, posField idx, imm8⟩
  | .getb rs idx => ⟨0x11, 0, regField rs, 0, posField idx, 0⟩
  | .xor rd rs => ⟨0x12, regField rd, regField rs, 0, 0, 0⟩
  | .gfmul a b => ⟨0x20, 0, 0, highHalf a, lowHalf a, b⟩
  | .pi imm8 => ⟨0x30, 0, 0, 0, 0, imm8⟩
  | .piinv imm8 => ⟨0x31, 0, 0, 0, 0, imm8⟩
  | .s rd rs => ⟨0x32, regField rd, regField rs, 0, 0, 0⟩
  | .sinv rd rs => ⟨0x33, regField rd, regField rs, 0, 0, 0⟩
  | .r rd rs => ⟨0x40, regField rd, regField rs, 0, 0, 0⟩
  | .rinv rd rs => ⟨0x41, regField rd, regField rs, 0, 0, 0⟩
  | .l rd rs => ⟨0x42, regField rd, regField rs, 0, 0, 0⟩
  | .linv rd rs => ⟨0x43, regField rd, regField rs, 0, 0, 0⟩
  | .matl rd rs => ⟨0x44, regField rd, regField rs, 0, 0, 0⟩
  | .matli rd rs => ⟨0x45, regField rd, regField rs, 0, 0, 0⟩
  | .getl k i => ⟨0x46, 0, 0, posField k, posField i, 0⟩
  | .getli k i => ⟨0x47, 0, 0, posField k, posField i, 0⟩
  | .gette i v k => ⟨0x50, 0, 0, posField i, posField k, v⟩
  | .gettd i v k => ⟨0x51, 0, 0, posField i, posField k, v⟩
  | .getti i v k => ⟨0x52, 0, 0, posField i, posField k, v⟩
  | .lsenc rd rs => ⟨0x58, regField rd, regField rs, 0, 0, 0⟩
  | .lsdec rd rs => ⟨0x59, regField rd, regField rs, 0, 0, 0⟩
  | .ldinv rd rs => ⟨0x5A, regField rd, regField rs, 0, 0, 0⟩
  | .rcon rd imm8 => ⟨0x60, regField rd, 0, 0, 0, imm8⟩
  | .fstep ra rb rk => ⟨0x61, regField ra, regField rb, regField rk, 0, 0⟩
  | .getrk rd idx => ⟨0x62, regField rd, 0, 0, posField idx, 0⟩

/-- R51, R54: the word of a command. For a command that is not well formed it is the word its fields would make, which
`decode` refuses (R57, R58). -/
def encode (i : Instr) : Word := wordOf (fieldsOfInstr i)

/-- What the decoder reads from a word of the opcode table: bit 0 is the least significant bit of the one 32-bit word
(R50), and the bits above `nbits` are zero. The command port carries the word as one value, so no byte order arises
(spec/20_memory.md R31). -/
def decodeTableWord (nbits w : Nat) : Option Instr :=
  match decode (BitVec.ofNat 32 (w % 2 ^ nbits)) with
  | .ok i => some i
  | .error _ => none

end Sys2Proof
end

