-- ==== Sys2Proof/Config.lean ====
section
/-! DEFINITION. The sizes of spec/00_scope.md R5 and the values this model names for what reset leaves unspecified
(spec/10_state.md R25). The constants `RED`, `TV` and `PI` are data a test could show wrong, so they stand in
Sys2Proof/Machine/Constants.lean. -/

namespace Sys2Proof.Config

/-- R5 `NRK`: number of round keys, indexed 1..10. -/
abbrev nrk : Nat := 10

/-- R5 `NCONST`: number of round constants, indexed 1..32. -/
abbrev nconst : Nat := 32

/-- R5 `NSTEP_L`: applications of R in L. -/
abbrev nstepL : Nat := 16

/-- R5 `NSQ`: squarings that take `M` to `M^16`. -/
abbrev nsq : Nat := 4

/-- What `State.reset` holds in each block register. DESIGN CHOICE, unsafe: R25 leaves it unspecified; log entry 1. -/
def resetBlock : Block := Vector.replicate 16 0

/-- What `State.reset` holds in `GR`. DESIGN CHOICE, unsafe: R25 leaves it unspecified; log entry 1. -/
def resetByte : Byte := 0

end Sys2Proof.Config
end

