-- ==== Sys2Proof/Machine/Blocks.lean ====
section
/-! DEFINITION. The block datapath and the pure functions on blocks that the other files share: bytewise XOR, byte read
and write (spec/40_block.md R70), the integer conversion `BlockOfInt` (R77), the unit block of spec/44_table_generator.md
R127, and `XORSUM` of spec/00_scope.md R9. -/

namespace Sys2Proof.Machine

/-- R8: `ZERO`, the block of 16 zero bytes. -/
def zeroBlock : Block := Vector.replicate 16 0

/-- R70: `(a ^ b)[i] = a[i] ^ b[i]`. -/
def xorBlock (a b : Block) : Block := Vector.ofFn fun i : Pos => a[i] ^^^ b[i]

/-- R72: the block with byte `i` replaced and the other 15 kept. -/
def setByte (x : Block) (i : Pos) (v : Byte) : Block := x.set i v

/-- R77: the big-endian encoding of an integer: bits 8j+7..8j of `n` stand in byte 15-j. The spec uses it for 1..32; this
model also writes the spec's block constants with it. -/
def blockOfInt (n : Nat) : Block := Vector.ofFn fun i : Pos => BitVec.ofNat 8 (n >>> (8 * (15 - i.val)))

/-- R127: `UNIT(i, c)`, zero except byte `i` = `c`. -/
def unitBlock (i : Pos) (c : Byte) : Block := Vector.ofFn fun j : Pos => if j = i then c else 0

/-- R9: `XORSUM(i = 0..15) e`; the empty XOR is 0. -/
def xorSum (e : Pos → Byte) : Byte := (List.finRange 16).foldr (fun i acc => e i ^^^ acc) 0

/-- R9: `XORSUM` of blocks, the accumulation of R140: start from `ZERO` and XOR the 16 values in. -/
def xorSumBlock (e : Pos → Block) : Block := (List.finRange 16).foldl (fun acc i => xorBlock acc (e i)) zeroBlock

/-- R9: "a loop with a fixed trip count": `f` applied `n` times. -/
def iterate {α : Type} (f : α → α) : Nat → α → α
  | 0, x => x
  | n + 1, x => iterate f n (f x)

end Sys2Proof.Machine
end

