-- ==== Sys2Proof/Machine/Constants.lean ====
section
/-! DEFINITION. The constants of the hardware, valid from reset and no state (spec/10_state.md R18): the reduction
constant, the transition vector, the S-box and its inverse, with the substitution functions that read them
(spec/42_sbox.md R90 to R93). -/

namespace Sys2Proof.Machine

/-- R81: `RED`, the low eight bits of x^8 + x^7 + x^6 + x + 1. PRESUMED, unsafe: general knowledge
(spec/93_implementation_defined.md G1); log entry 8. -/
def red : Byte := 0xC3

/-- R100: the transition vector `TV[0..15]`, byte 0 first. PRESUMED, unsafe: general knowledge (G2); log entry 8. -/
def tv : Block := blockOfInt 0x94208510c2c001fb01c0c21085209401

/-- R90: row `Rx` of the S-box `PI`, column `x0` first, as one 16-byte number. PRESUMED, unsafe: the values are general
knowledge (spec/93_implementation_defined.md G3); log entry 8. -/
def sboxRows : Vector Nat 16 := #v[
  0xfceedd11cf6e3116fbc4fada23c5044d,
  0xe977f0db932e99ba1736f1bb14cd5fc1,
  0xf918655ae25cef21811c3c428b018e4f,
  0x058402aee36a8fa0060bed987fd4d31f,
  0xeb342c51eac848abf22a68a2fd3acecc,
  0xb5700e56080c7612bf7213479cb75d87,
  0x15a19629107b9ac7f391786f9d9eb2b1,
  0x3275193dff358a7e6d54c680c3bd0d57,
  0xdff524a93ea843c9d779d6f67c22b903,
  0xe00fecde7a94b0bcdce828504e330a4a,
  0xa79760731e0062441ab83882649f2641,
  0xad454692275e552f8ca3a57d69d5953b,
  0x0758b34086ac1df730376be488d9e789,
  0xe11b83494c3ff8fe8d53aa90cad88561,
  0x207167a42d2b095bcb9b25d0bee56c52,
  0x59a674d2e6f4b4c0d166afc2394b63b6]

/-- R91: the same of the inverse S-box `PI_INV`. -/
def sboxInvRows : Vector Nat 16 := #v[
  0xa52d328f0e3038c054e69e39557e5291,
  0x6403575a1c6007182172a8d129c6a43f,
  0xe0278d0c82eaaeb49a6349e542e415b7,
  0xc806709d417519c9aafc4dbf2a7384d5,
  0xc3af2b86a7b1b25b46d39ffdd40f9c2f,
  0x9b43efd979b6537fc1f023e7255eb51e,
  0xa2dfa6feac22f9e24abc35caee78056b,
  0x51e159a3f27156116a8994658cbb773c,
  0x7b28abd231dec45fcccf762cb8d82e36,
  0xdb69b31495be62a13b1666e95c6c6dad,
  0x37614bb9e3baf1a08583da47c5b033fa,
  0x966f6ec2f650ff5da98e171b977dec58,
  0xf71ffb7c090d7a674587dce84f1d4e04,
  0xebf8f33e3dbd8a88ddcd0b1398029380,
  0x90d02434cbedf4ce99104440923a0126,
  0x121a4868f5818bc7d6200a08004cd774]

/-- Column `v[3:0]` of row `v[7:4]`: "Row `Rx`, column `xC` holds `PI[0xRC]`" (R90). -/
def sboxEntry (rows : Vector Nat 16) (v : Byte) : Byte :=
  BitVec.ofNat 8 (rows[v.toNat / 16]'(by omega) >>> (8 * (15 - v.toNat % 16)))

/-- R90: `PI[v]`. -/
def sbox (v : Byte) : Byte := sboxEntry sboxRows v

/-- R91: `PI_INV[v]`. -/
def sboxInv (v : Byte) : Byte := sboxEntry sboxInvRows v

/-- R93: `S(x)[i] = PI[x[i]]`. -/
def transS (x : Block) : Block := Vector.ofFn fun i : Pos => sbox x[i]

/-- R93: `S_inv(x)[i] = PI_INV[x[i]]`. -/
def transSInv (x : Block) : Block := Vector.ofFn fun i : Pos => sboxInv x[i]

end Sys2Proof.Machine
end

