-- ==== Sys2Proof/Machine/Gf256.lean ====
section
/-! DEFINITION. Multiplication in GF(2^8) and its 256x256 table (spec/41_gf256.md R80 to R84), and the linear functions
built on a product: the feedback, the steps R and R_inv, L and L_inv (spec/43_diffusion.md R101 to R104), and the matrix
operations (spec/44_table_generator.md R122 to R124). The linear functions take the product as an argument, because a
command reads its products from the table `MUL` and the generator forms them with `gf_mul`. -/

namespace Sys2Proof.Machine

/-- R82: doubling, with the reduction constant applied when the top bit is set before the shift. -/
def gfDouble (a : Byte) : Byte := if a.getLsbD 7 then (a <<< 1) ^^^ red else a <<< 1

/-- R82: `n` turns of the loop, on the running multiplicand `a`, the multiplier `b` and the accumulator `c`. -/
def gfMulLoop : Nat → Byte → Byte → Byte → Byte
  | 0, _, _, c => c
  | n + 1, a, b, c => gfMulLoop n (gfDouble a) (b >>> 1) (if b.getLsbD 0 then c ^^^ a else c)

/-- R82: `gf_mul(a, b)`, eight turns from a zero accumulator. -/
def gfMul (a b : Byte) : Byte := gfMulLoop 8 a b 0

/-- R84: `MUL[a][b] <- gf_mul(a, b)` for every a, b. -/
def generateMul : MulTable :=
  Vector.ofFn fun a : Fin 256 => Vector.ofFn fun b : Fin 256 => gfMul (BitVec.ofFin a) (BitVec.ofFin b)

/-- R101: `ell(x) = XORSUM(i = 0..15) gf_mul(TV[i], x[i])`. -/
def ell (mul : Byte → Byte → Byte) (x : Block) : Byte := xorSum fun i => mul tv[i] x[i]

/-- R102: step R: byte 0 is the feedback and byte i is old byte i-1. -/
def stepR (mul : Byte → Byte → Byte) (x : Block) : Block :=
  Vector.ofFn fun i : Pos => if i.val = 0 then ell mul x else x[i.val - 1]

/-- R103: the shifted state `z` of R_inv: `z[j] = y[j+1]` for j = 0..14, `z[15] = y[0]`. -/
def rotateDown (y : Block) : Block :=
  Vector.ofFn fun j : Pos => if h : j.val < 15 then y[j.val + 1] else y[0]

/-- R103: step R_inv: `x[j] = z[j]` for j = 0..14, `x[15] = ell(z)`. -/
def stepRInv (mul : Byte → Byte → Byte) (y : Block) : Block :=
  (rotateDown y).set 15 (ell mul (rotateDown y))

/-- R104: L is 16 applications of R. -/
def transL (mul : Byte → Byte → Byte) (x : Block) : Block := iterate (stepR mul) Config.nstepL x

/-- R104: L_inv is 16 applications of R_inv. -/
def transLInv (mul : Byte → Byte → Byte) (x : Block) : Block := iterate (stepRInv mul) Config.nstepL x

/-- R122: the matrix-vector product `(A . x)[r] = XORSUM(c = 0..15) gf_mul(A[r][c], x[c])`. -/
def matVec (mul : Byte → Byte → Byte) (A : Matrix) (x : Block) : Block :=
  Vector.ofFn fun r : Pos => xorSum fun c => mul A[r][c] x[c]

/-- R124: `(A . B)[r][c] = XORSUM(k = 0..15) gf_mul(A[r][k], B[k][c])`. -/
def matMul (A B : Matrix) : Matrix :=
  Vector.ofFn fun r : Pos => Vector.ofFn fun c : Pos => xorSum fun k => gfMul A[r][k] B[k][c]

/-- R122: the matrix `M` of R: first row `TV`, row i a single 1 in column i-1. -/
def matR : Matrix :=
  Vector.ofFn fun r : Pos => Vector.ofFn fun c : Pos =>
    if r.val = 0 then tv[c] else if c.val + 1 = r.val then 1 else 0

/-- R123: the matrix `M_INV` of R_inv: row j a single 1 in column j+1; the last row `TV[15]`, then `TV[0..14]`. -/
def matRInv : Matrix :=
  Vector.ofFn fun r : Pos => Vector.ofFn fun c : Pos =>
    if r.val < 15 then (if c.val = r.val + 1 then 1 else 0)
    else if c.val = 0 then tv[15] else tv[c.val - 1]

/-- R124: the 16th power by four squarings. -/
def pow16 (A : Matrix) : Matrix := iterate (fun X => matMul X X) Config.nsq A

end Sys2Proof.Machine
end

