-- ==== Sys2Proof/Machine/State.lean ====
section
/-! DEFINITION. The state of one KZCORE, every piece that spec/10_state.md R10 lists and nothing else but the model's own
list of host moves, as plain data; and the state right after reset (R25). There is no program counter (R13) and no
byte-addressed memory (spec/20_memory.md R30). -/

namespace Sys2Proof.Machine

/-- R10: the six generated tables (R19, R20, R21). -/
structure Tables where
  /-- `MUL[a][b]` (R19). -/
  mul : MulTable
  /-- `LMAT[k][i]` (R20). -/
  lmat : Matrix
  /-- `LINV[k][i]` (R20). -/
  linv : Matrix
  /-- `T_ENC[i][v]` (R21). -/
  tEnc : FusedTable
  /-- `T_DEC[i][v]` (R21). -/
  tDec : FusedTable
  /-- `T_DINV[i][v]` (R21). -/
  tDinv : FusedTable
  deriving DecidableEq, Repr

/-- R25, R190: everything a reset leaves unspecified. It is a free input of the reset event: a statement about a reset
holds for every value of it. Log entry 4. -/
structure Draw where
  blocks : Vector Block 4
  gr : Byte
  rk : Vector Block Config.nrk
  tables : Tables
  deriving DecidableEq, Repr

/-- R201: what the host can send the core between commands. Sampling the outputs sends nothing. -/
inductive HostMove where
  /-- One 32-bit word presented to the command port. -/
  | command (w : Word)
  /-- The reset input; `d` is what this reset leaves in the unspecified registers and tables (R190). -/
  | reset (d : Draw)
  deriving DecidableEq, Repr

/-- R10: the architectural state, and `inputs`, the model's own field. -/
structure State where
  /-- `B0..B3`: four registers of 16 bytes (R11). -/
  blocks : Vector Block 4
  /-- `GR`: 8 bits (R12). -/
  gr : Byte
  /-- `STATUS`: 8 bits, `TREADY` bit 0, `KVALID` bit 1, `FAULT` bit 2, bits 7:3 zero (R14). -/
  status : Byte
  /-- `CAUSE`: 8 bits (R15). -/
  cause : Byte
  /-- `FINFO`: 32 bits (R16). -/
  finfo : Word
  /-- `RK[1..10]`: entry `n` stands at index `n - 1` (R17). -/
  rk : Vector Block Config.nrk
  /-- `MUL`, `LMAT`, `LINV`, `T_ENC`, `T_DEC`, `T_DINV` (R19 to R21). -/
  tables : Tables
  /-- The model's own field: the host's moves still to come, the next one first (R13: the order of commands belongs to
  the host; R188: "A model's step function takes the next word as an input."). Log entry 3. -/
  inputs : List HostMove
  deriving DecidableEq, Repr

/-- Reasons for the machine to stop. There is none: every fault of the spec (R170) is recorded in `STATUS`, `CAUSE` and
`FINFO` and leaves a next state (R175), and a core with `FAULT` = 1 goes on taking words that change nothing (R176). The
type is closed and empty: safe. Log entry 5. -/
inductive Fault where
  deriving DecidableEq, Repr

/-- Reasons for a command to have no meaning. -/
inductive Refusal where
  /-- Raised by `exec` alone, in the arm of a command that has no meaning yet; no arm raises it now: safe. -/
  | notModelled (mnemonic : String)
  deriving DecidableEq, Repr

/-- What `State.reset` holds in the tables, which no command can read while `TREADY` = 0 (R25). DESIGN CHOICE, safe: log
entry 2. -/
def Tables.unwritten : Tables where
  mul := Vector.replicate 256 (Vector.replicate 256 0)
  lmat := Vector.replicate 16 (Vector.replicate 16 0)
  linv := Vector.replicate 16 (Vector.replicate 16 0)
  tEnc := Vector.replicate 16 (Vector.replicate 256 (Vector.replicate 16 0))
  tDec := Vector.replicate 16 (Vector.replicate 256 (Vector.replicate 16 0))
  tDinv := Vector.replicate 16 (Vector.replicate 256 (Vector.replicate 16 0))

/-- R25, R190: the machine right after reset. `STATUS`, `CAUSE` and `FINFO` are the spec's; `B0..B3` and `GR` are the
values the model names (log entry 1); `RK` and the tables are placeholders no command can read (log entry 2); the host
has sent nothing yet. -/
def State.reset : State where
  blocks := Vector.replicate 4 Config.resetBlock
  gr := Config.resetByte
  status := 0x00
  cause := 0x00
  finfo := 0x00000000
  rk := Vector.replicate Config.nrk Config.resetBlock
  tables := Tables.unwritten
  inputs := []

end Sys2Proof.Machine
end

