-- ==== Sys2Proof/Machine/Generator.lean ====
section
/-! DEFINITION. The table generator (spec/44_table_generator.md R120 to R126), the reads of a generated table, and the
fused pass ApplyLS (spec/45_fused_round.md R140). -/

namespace Sys2Proof.Machine

/-- R126: `table[i][v][k] = gf_mul(f(v), A[k][i])`, `f` the substitution fused with the matrix `A`. -/
def fuse (f : Byte → Byte) (A : Matrix) : FusedTable :=
  Vector.ofFn fun i : Pos => Vector.ofFn fun v : Fin 256 => Vector.ofFn fun k : Pos => gfMul (f (BitVec.ofFin v)) A[k][i]

/-- R120: what `GenerateTables` writes, in the rule's order. Setting `TREADY` is left to the commands that run it. -/
def generateTables : Tables :=
  let lmat := pow16 matR
  let linv := pow16 matRInv
  { mul := generateMul
    lmat := lmat
    linv := linv
    tEnc := fuse sbox lmat
    tDec := fuse sboxInv linv
    tDinv := fuse (fun v => v) linv }

/-- R30: `MUL[a][b]`. -/
def mulRead (T : Tables) (a b : Byte) : Byte := (T.mul[a.toNat]'a.isLt)[b.toNat]'b.isLt

/-- R30: `T[i][v]`, a whole 16-byte entry of a fused table. -/
def fusedRead (T : FusedTable) (i : Pos) (v : Byte) : Block := T[i][v.toNat]'v.isLt

/-- R140: `ApplyLS(T, x)`, the XOR over i of `T[i][x[i]]`. -/
def applyLS (T : FusedTable) (x : Block) : Block := xorSumBlock fun i => fusedRead T i x[i]

end Sys2Proof.Machine
end

