-- ==== Sys2Proof/Machine/Cipher.lean ====
section
/-! DEFINITION. The key schedule (spec/46_key_schedule.md R150 to R152) and the round engine
(spec/47_round_engine.md R160, R162, R164) as pure functions. `RK[n]` stands at index `n - 1` of a round-key file. -/

namespace Sys2Proof.Machine

/-- R150: `C(i) = L(BlockOfInt(i))`. -/
def roundConst (mul : Byte → Byte → Byte) (i : Nat) : Block := transL mul (blockOfInt i)

/-- R140, R160: the direct form `L(S(x))` of the fused pass. -/
def directLS (mul : Byte → Byte → Byte) (x : Block) : Block := transL mul (transS x)

/-- R151: `F(k, a, b) = (L(S(a ^ k)) ^ b, a)`; `ls` is `L(S(.))`, direct or fused. -/
def feistel (ls : Block → Block) (k a b : Block) : Block × Block := (xorBlock (ls (xorBlock a k)) b, a)

/-- R152: the eight steps j = 1..8 of outer round `g`, with the constants `C(8*(g-1) + j)`. -/
def expandGroup (g : Nat) (p : Block × Block) : Block × Block :=
  (List.range 8).foldl (fun q j => feistel (directLS gfMul) (roundConst gfMul (8 * (g - 1) + (j + 1))) q.1 q.2) p

/-- R152: `KeySchedule(K1, K2)`. It reads the two blocks and constants only (R153). -/
def keySchedule (k1 k2 : Block) : Vector Block Config.nrk :=
  let g1 := expandGroup 1 (k1, k2)
  let g2 := expandGroup 2 g1
  let g3 := expandGroup 3 g2
  let g4 := expandGroup 4 g3
  #v[k1, k2, g1.1, g1.2, g2.1, g2.2, g3.1, g3.2, g4.1, g4.2]

/-- R160: `Encrypt(RK, x)`: for i = 1..10 add `RK[i]`, and if i is not 10 apply `ls`, which is `L(S(.))`. -/
def encrypt (ls : Block → Block) (rk : Vector Block Config.nrk) (x : Block) : Block :=
  (List.finRange Config.nrk).foldl
    (fun y i => if i.val = 9 then xorBlock y rk[i] else ls (xorBlock y rk[i])) x

/-- R162: `Decrypt(RK, y)`: remove `RK[10]`, then for i = 9 downto 1 apply L_inv, S_inv and `RK[i]`. -/
def decrypt (mul : Byte → Byte → Byte) (rk : Vector Block Config.nrk) (y : Block) : Block :=
  (List.finRange 9).foldr
    (fun i x => xorBlock (transSInv (transLInv mul x)) (rk[i.val]'(by have := i.isLt; simp only [Config.nrk]; omega)))
    (xorBlock y rk[9])

/-- R164: `DK[i] = L_inv(RK[i])`. -/
def decryptKey (mul : Byte → Byte → Byte) (k : Block) : Block := transLInv mul k

/-- R164: the fused arrangement of decryption, which no command can tell from R162. -/
def decryptFused (T : Tables) (rk : Vector Block Config.nrk) (y : Block) : Block :=
  let x := xorBlock (applyLS T.tDinv y) (decryptKey (mulRead T) rk[9])
  let x := (List.finRange 8).foldr
    (fun i z => xorBlock (applyLS T.tDec z)
      (decryptKey (mulRead T) (rk[i.val + 1]'(by have := i.isLt; simp only [Config.nrk]; omega)))) x
  xorBlock (transSInv x) rk[0]

end Sys2Proof.Machine
end

