-- ==== Sys2Proof/Machine/Flags.lean ====
section
/-! DEFINITION. The three flags of `STATUS` (spec/10_state.md R14): how each is read and set. No command clears one; reset
writes the whole register. There are no other flags and no condition codes. -/

namespace Sys2Proof.Machine

/-- R14 bit 0: the generated tables hold their values. -/
def State.tready (s : State) : Bool := s.status.getLsbD 0

/-- R14 bit 1: the round keys are valid. -/
def State.kvalid (s : State) : Bool := s.status.getLsbD 1

/-- R14 bit 2: a fault has been recorded. -/
def State.faulted (s : State) : Bool := s.status.getLsbD 2

/-- R14: `STATUS` with `TREADY` set. -/
def setTready (status : Byte) : Byte := status ||| 0x01

/-- R14: `STATUS` with `KVALID` set. -/
def setKvalid (status : Byte) : Byte := status ||| 0x02

/-- R14, R175: `STATUS` with `FAULT` set. -/
def setFault (status : Byte) : Byte := status ||| 0x04

/-- R14: bits 7:3 of `STATUS`, which read as 0. -/
def reservedBits (status : Byte) : BitVec 5 := status.extractLsb' 3 5

end Sys2Proof.Machine
end

