-- ==== Sys2Proof/Machine/Operands.lean ====
section
/-! DEFINITION. The operand forms: reading and writing a block register, one of its bytes, `GR`, a round key and an entry
of a generated table (spec/20_memory.md R30, spec/00_scope.md R9). -/

namespace Sys2Proof.Machine

/-- R9: `B[r]`. -/
def State.block (s : State) (r : Reg) : Block := s.blocks[r]

/-- R9: `B[r] <- v`; the other three registers keep their values. -/
def State.setBlock (s : State) (r : Reg) (v : Block) : State := { s with blocks := s.blocks.set r v }

/-- R9: `B[r][i]`. -/
def State.blockByte (s : State) (r : Reg) (i : Pos) : Byte := (s.block r)[i]

/-- R9, R12: `GR <- v`. -/
def State.setGr (s : State) (v : Byte) : State := { s with gr := v }

/-- R9: `MUL[a][b]`. -/
def State.mulAt (s : State) (a b : Byte) : Byte := mulRead s.tables a b

/-- R9: `LMAT[k][i]`. -/
def State.lmatAt (s : State) (k i : Pos) : Byte := s.tables.lmat[k][i]

/-- R9: `LINV[k][i]`. -/
def State.linvAt (s : State) (k i : Pos) : Byte := s.tables.linv[k][i]

/-- R30: byte `k` of the entry `[i][v]` of a fused table. -/
def fusedByte (T : FusedTable) (i : Pos) (v : Byte) (k : Pos) : Byte := (fusedRead T i v)[k]

/-- R9, R17: `RK[n]` for n in 1..10. For the other values of the 4-bit index, which no legal word carries (R57), it is
`ZERO`; no command reads it there. -/
def State.roundKey (s : State) (n : Pos) : Block :=
  if h : 1 ≤ n.val ∧ n.val ≤ 10 then s.rk[n.val - 1]'(by simp only [Config.nrk]; omega) else zeroBlock

end Sys2Proof.Machine
end

