-- ==== Sys2Proof/Machine/Ops.lean ====
section
/-! DEFINITION. What every command shares: fault entry (spec/60_exceptions.md R175) and the only way out of it, reset
(R178, spec/70_reset_and_hazards.md R190); the order of checks (R177); the host's side of the command port (R201). -/

namespace Sys2Proof.Machine

/-- R170: the faults the core records. `InvalidFormat` (code 1) belongs to the host and is never recorded (R171). -/
inductive Cause where
  /-- R172: a command that reads a generated table, with `TREADY` = 0. -/
  | incompleteTransform
  /-- R173: a word that is not a legal encoding. -/
  | illegalCommand
  /-- R174: `ENC`, `DEC` or `GETRK` with `TREADY` = 1 and `KVALID` = 0. -/
  | keyNotSet
  deriving DecidableEq, Repr

/-- R15, R170: the code `CAUSE` holds. -/
def causeCode : Cause → Byte
  | .incompleteTransform => 2
  | .illegalCommand => 3
  | .keyNotSet => 4

/-- R175: fault entry, one atomic step: `FAULT <- 1`, `CAUSE <- c`, `FINFO <- w`, and nothing else. -/
def enterFault (c : Cause) (w : Word) (s : State) : State :=
  { s with status := setFault s.status, cause := causeCode c, finfo := w }

/-- R25, R190: the effect of the reset input, the only way out of a fault (R178). `STATUS`, `CAUSE` and `FINFO` are zero;
everything the rule leaves unspecified comes from the draw. The host's further moves are not the core's to change. -/
def applyReset (d : Draw) (s : State) : State where
  blocks := d.blocks
  gr := d.gr
  status := 0x00
  cause := 0x00
  finfo := 0x00000000
  rk := d.rk
  tables := d.tables
  inputs := s.inputs

/-- R177: what a command needs besides a core without a fault. -/
inductive Readiness where
  /-- Neither flag. -/
  | none
  /-- `TREADY`. -/
  | tables
  /-- `TREADY`, then `KVALID`. -/
  | key
  deriving DecidableEq, Repr

/-- R177 step 3: does the command need `TREADY`? -/
def needsTables : Readiness → Bool
  | .none => false
  | .tables => true
  | .key => true

/-- R177 step 4: does the command need `KVALID`? -/
def needsKey : Readiness → Bool
  | .none => false
  | .tables => false
  | .key => true

/-- R177: the order of checks around a command `i` with its readiness and the effect of its pseudocode. A refused word
changes nothing (R176); a command without a legal encoding is `IllegalCommand` (R57, R58, log entry 7); the word recorded
in `FINFO` is the command's (R175, log entry 6); step 5 cannot fault. -/
def issue (i : Instr) (need : Readiness) (effect : State → State) (s : State) : Host.Outcome State Fault Refusal :=
  if s.faulted then .next s
  else if !i.wellFormed then .next (enterFault .illegalCommand (encode i) s)
  else if needsTables need && !s.tready then .next (enterFault .incompleteTransform (encode i) s)
  else if needsKey need && !s.kvalid then .next (enterFault .keyNotSet (encode i) s)
  else .next (effect s)

/-- R177 steps 1 and 2 for a word that does not decode: refused on a faulted core, `IllegalCommand` otherwise (R59). -/
def issueIllegal (w : Word) (s : State) : Host.Outcome State Fault Refusal :=
  if s.faulted then .next s else .next (enterFault .illegalCommand w s)

/-- R201: the host's next move and the core with that move taken from the list. -/
def takeInput (s : State) : Option (HostMove × State) :=
  match s.inputs with
  | [] => none
  | m :: rest => some (m, { s with inputs := rest })

/-- R201: the host presents a word: it becomes the next move. -/
def presentWord (w : Word) (s : State) : State := { s with inputs := .command w :: s.inputs }

/-- R26: what the host can see at a command boundary. -/
structure Outputs where
  gr : Byte
  status : Byte
  cause : Byte
  finfo : Word
  deriving DecidableEq, Repr

/-- R26, R201: sampling the outputs; it has no side effect. -/
def sample (s : State) : Outputs := ⟨s.gr, s.status, s.cause, s.finfo⟩

end Sys2Proof.Machine
end

