-- ==== Sys2Proof/Machine/BlockCommands.lean ====
section
/-! DEFINITION. The block commands `SETB`, `GETB`, `XOR` (spec/40_block.md R71 to R73). -/

namespace Sys2Proof.Machine

/-- R72: `v = B[rd]; v[idx] <- imm8; B[rd] <- v`. -/
def execSetb (rd : Reg) (idx : Pos) (imm8 : Byte) (s : State) : Host.Outcome State Fault Refusal :=
  issue (.setb rd idx imm8) .none (fun s => s.setBlock rd (setByte (s.block rd) idx imm8)) s

/-- R73: `GR <- B[rs][idx]`. -/
def execGetb (rs : Reg) (idx : Pos) (s : State) : Host.Outcome State Fault Refusal :=
  issue (.getb rs idx) .none (fun s => s.setGr (s.blockByte rs idx)) s

/-- R71: `B[rd] <- B[rd] ^ B[rs]`. -/
def execXor (rd rs : Reg) (s : State) : Host.Outcome State Fault Refusal :=
  issue (.xor rd rs) .none (fun s => s.setBlock rd (xorBlock (s.block rd) (s.block rs))) s

end Sys2Proof.Machine
end

