-- ==== Sys2Proof/Machine/Diffusion.lean ====
section
/-! DEFINITION. The diffusion commands `R`, `RINV`, `L`, `LINV` (spec/43_diffusion.md R106 to R109) and the matrix commands
`MATL`, `MATLI`, `GETL`, `GETLI` (spec/44_table_generator.md R129 to R132). Their products are read from `MUL`. -/

namespace Sys2Proof.Machine

/-- R106: `B[rd] <- R(B[rs])`. -/
def execR (rd rs : Reg) (s : State) : Host.Outcome State Fault Refusal :=
  issue (.r rd rs) .tables (fun s => s.setBlock rd (stepR s.mulAt (s.block rs))) s

/-- R107: `B[rd] <- R_inv(B[rs])`. -/
def execRinv (rd rs : Reg) (s : State) : Host.Outcome State Fault Refusal :=
  issue (.rinv rd rs) .tables (fun s => s.setBlock rd (stepRInv s.mulAt (s.block rs))) s

/-- R108: `x = B[rs]; repeat 16 times: x = R(x); B[rd] <- x`. -/
def execL (rd rs : Reg) (s : State) : Host.Outcome State Fault Refusal :=
  issue (.l rd rs) .tables (fun s => s.setBlock rd (transL s.mulAt (s.block rs))) s

/-- R109: `x = B[rs]; repeat 16 times: x = R_inv(x); B[rd] <- x`. -/
def execLinv (rd rs : Reg) (s : State) : Host.Outcome State Fault Refusal :=
  issue (.linv rd rs) .tables (fun s => s.setBlock rd (transLInv s.mulAt (s.block rs))) s

/-- R129: `y[k] = XORSUM(i = 0..15) gf_mul(LMAT[k][i], x[i]); B[rd] <- y`. -/
def execMatl (rd rs : Reg) (s : State) : Host.Outcome State Fault Refusal :=
  issue (.matl rd rs) .tables (fun s => s.setBlock rd (matVec s.mulAt s.tables.lmat (s.block rs))) s

/-- R130: the same with `LINV`. -/
def execMatli (rd rs : Reg) (s : State) : Host.Outcome State Fault Refusal :=
  issue (.matli rd rs) .tables (fun s => s.setBlock rd (matVec s.mulAt s.tables.linv (s.block rs))) s

/-- R131: `GR <- LMAT[k][i]`. -/
def execGetl (k i : Pos) (s : State) : Host.Outcome State Fault Refusal :=
  issue (.getl k i) .tables (fun s => s.setGr (s.lmatAt k i)) s

/-- R132: `GR <- LINV[k][i]`. -/
def execGetli (k i : Pos) (s : State) : Host.Outcome State Fault Refusal :=
  issue (.getli k i) .tables (fun s => s.setGr (s.linvAt k i)) s

end Sys2Proof.Machine
end

