-- ==== Sys2Proof/Machine/Fused.lean ====
section
/-! DEFINITION. The fused-table commands `GETTE`, `GETTD`, `GETTI` (spec/44_table_generator.md R133 to R135) and `LSENC`,
`LSDEC`, `LDINV` (spec/45_fused_round.md R141 to R143). -/

namespace Sys2Proof.Machine

/-- R133: `GR <- T_ENC[i][v][k]`. -/
def execGette (i : Pos) (v : Byte) (k : Pos) (s : State) : Host.Outcome State Fault Refusal :=
  issue (.gette i v k) .tables (fun s => s.setGr (fusedByte s.tables.tEnc i v k)) s

/-- R134: `GR <- T_DEC[i][v][k]`. -/
def execGettd (i : Pos) (v : Byte) (k : Pos) (s : State) : Host.Outcome State Fault Refusal :=
  issue (.gettd i v k) .tables (fun s => s.setGr (fusedByte s.tables.tDec i v k)) s

/-- R135: `GR <- T_DINV[i][v][k]`. -/
def execGetti (i : Pos) (v : Byte) (k : Pos) (s : State) : Host.Outcome State Fault Refusal :=
  issue (.getti i v k) .tables (fun s => s.setGr (fusedByte s.tables.tDinv i v k)) s

/-- R141: `B[rd] <- ApplyLS(T_ENC, B[rs])`. -/
def execLsenc (rd rs : Reg) (s : State) : Host.Outcome State Fault Refusal :=
  issue (.lsenc rd rs) .tables (fun s => s.setBlock rd (applyLS s.tables.tEnc (s.block rs))) s

/-- R142: `B[rd] <- ApplyLS(T_DEC, B[rs])`. -/
def execLsdec (rd rs : Reg) (s : State) : Host.Outcome State Fault Refusal :=
  issue (.lsdec rd rs) .tables (fun s => s.setBlock rd (applyLS s.tables.tDec (s.block rs))) s

/-- R143: `B[rd] <- ApplyLS(T_DINV, B[rs])`. -/
def execLdinv (rd rs : Reg) (s : State) : Host.Outcome State Fault Refusal :=
  issue (.ldinv rd rs) .tables (fun s => s.setBlock rd (applyLS s.tables.tDinv (s.block rs))) s

end Sys2Proof.Machine
end

