-- ==== Sys2Proof/Machine/Galois.lean ====
section
/-! DEFINITION. The command `GFMUL` (spec/41_gf256.md R85). -/

namespace Sys2Proof.Machine

/-- R85: `GR <- MUL[a][b]`. -/
def execGfmul (a b : Byte) (s : State) : Host.Outcome State Fault Refusal :=
  issue (.gfmul a b) .tables (fun s => s.setGr (s.mulAt a b)) s

end Sys2Proof.Machine
end

