-- ==== Sys2Proof/Machine/KeySchedule.lean ====
section
/-! DEFINITION. The key-schedule commands `RCON`, `FSTEP`, `GETRK` (spec/46_key_schedule.md R155 to R157). -/

namespace Sys2Proof.Machine

/-- R155: `B[rd] <- C(imm8)`, formed with L on products read from `MUL`. -/
def execRcon (rd : Reg) (imm8 : Byte) (s : State) : Host.Outcome State Fault Refusal :=
  issue (.rcon rd imm8) .tables (fun s => s.setBlock rd (roundConst s.mulAt imm8.toNat)) s

/-- R156: all three registers are read first; `na = ApplyLS(T_ENC, a ^ k) ^ b`, `nb = a`; then `B[ra] <- na`,
`B[rb] <- nb`. -/
def execFstep (ra rb rk : Reg) (s : State) : Host.Outcome State Fault Refusal :=
  issue (.fstep ra rb rk) .tables (fun s =>
    let p := feistel (applyLS s.tables.tEnc) (s.block rk) (s.block ra) (s.block rb)
    (s.setBlock ra p.1).setBlock rb p.2) s

/-- R157: `B[rd] <- RK[idx]`. -/
def execGetrk (rd : Reg) (idx : Pos) (s : State) : Host.Outcome State Fault Refusal :=
  issue (.getrk rd idx) .key (fun s => s.setBlock rd (s.roundKey idx)) s

end Sys2Proof.Machine
end

