-- ==== Sys2Proof/Machine/Lifecycle.lean ====
section
/-! DEFINITION. The lifecycle and whole-cipher commands `INIT`, `SETKEY`, `ENC`, `DEC` (spec/44_table_generator.md R128,
spec/46_key_schedule.md R154, spec/47_round_engine.md R161, R163). -/

namespace Sys2Proof.Machine

/-- R128: `GenerateTables`, ending with `TREADY <- 1`. -/
def execInit (s : State) : Host.Outcome State Fault Refusal :=
  issue .init .none (fun s => { s with tables := generateTables, status := setTready s.status }) s

/-- R154: generate the tables if `TREADY` = 0, then `RK[1..10] <- KeySchedule(K1, K2)`, `KVALID <- 1`. `KeySchedule` is
computed from the two blocks and constants (R153); log entry 9. -/
def execSetkey (ra rb : Reg) (s : State) : Host.Outcome State Fault Refusal :=
  issue (.setkey ra rb) .none (fun s =>
    { s with
      tables := if s.tready then s.tables else generateTables
      rk := keySchedule (s.block ra) (s.block rb)
      status := setKvalid (setTready s.status) }) s

/-- R161: `B[rd] <- Encrypt(RK, B[rd])`, each `L(S(.))` by the fused pass through `T_ENC` (R160); log entry 10. -/
def execEnc (rd : Reg) (s : State) : Host.Outcome State Fault Refusal :=
  issue (.enc rd) .key (fun s => s.setBlock rd (encrypt (applyLS s.tables.tEnc) s.rk (s.block rd))) s

/-- R163: `B[rd] <- Decrypt(RK, B[rd])` by the inversion of R162; log entry 10. -/
def execDec (rd : Reg) (s : State) : Host.Outcome State Fault Refusal :=
  issue (.dec rd) .key (fun s => s.setBlock rd (decrypt s.mulAt s.rk (s.block rd))) s

end Sys2Proof.Machine
end

