-- ==== Sys2Proof/Machine/Substitution.lean ====
section
/-! DEFINITION. The substitution commands `PI`, `PIINV`, `S`, `SINV` (spec/42_sbox.md R94 to R97). The two tables are
constants, so none of the four needs `TREADY` (spec/10_state.md R18). -/

namespace Sys2Proof.Machine

/-- R94: `GR <- PI[imm8]`. -/
def execPi (imm8 : Byte) (s : State) : Host.Outcome State Fault Refusal :=
  issue (.pi imm8) .none (fun s => s.setGr (sbox imm8)) s

/-- R95: `GR <- PI_INV[imm8]`. -/
def execPiinv (imm8 : Byte) (s : State) : Host.Outcome State Fault Refusal :=
  issue (.piinv imm8) .none (fun s => s.setGr (sboxInv imm8)) s

/-- R96: `B[rd] <- S(B[rs])`. -/
def execS (rd rs : Reg) (s : State) : Host.Outcome State Fault Refusal :=
  issue (.s rd rs) .none (fun s => s.setBlock rd (transS (s.block rs))) s

/-- R97: `B[rd] <- S_inv(B[rs])`. -/
def execSinv (rd rs : Reg) (s : State) : Host.Outcome State Fault Refusal :=
  issue (.sinv rd rs) .none (fun s => s.setBlock rd (transSInv (s.block rs))) s

end Sys2Proof.Machine
end

