-- ==== Sys2Proof/Machine/Dispatch.lean ====
section
/-! DEFINITION. The dispatch from a command to its meaning, one arm per constructor of `Instr` in the order of
spec/opcode_table.json. -/

namespace Sys2Proof.Machine

def exec (i : Instr) (s : State) : Host.Outcome State Fault Refusal :=
  match i with
  | .init => Sys2Proof.Machine.execInit s
  | .setkey ra rb => Sys2Proof.Machine.execSetkey ra rb s
  | .enc rd => Sys2Proof.Machine.execEnc rd s
  | .dec rd => Sys2Proof.Machine.execDec rd s
  | .setb rd idx imm8 => Sys2Proof.Machine.execSetb rd idx imm8 s
  | .getb rs idx => Sys2Proof.Machine.execGetb rs idx s
  | .xor rd rs => Sys2Proof.Machine.execXor rd rs s
  | .gfmul a b => Sys2Proof.Machine.execGfmul a b s
  | .pi imm8 => Sys2Proof.Machine.execPi imm8 s
  | .piinv imm8 => Sys2Proof.Machine.execPiinv imm8 s
  | .s rd rs => Sys2Proof.Machine.execS rd rs s
  | .sinv rd rs => Sys2Proof.Machine.execSinv rd rs s
  | .r rd rs => Sys2Proof.Machine.execR rd rs s
  | .rinv rd rs => Sys2Proof.Machine.execRinv rd rs s
  | .l rd rs => Sys2Proof.Machine.execL rd rs s
  | .linv rd rs => Sys2Proof.Machine.execLinv rd rs s
  | .matl rd rs => Sys2Proof.Machine.execMatl rd rs s
  | .matli rd rs => Sys2Proof.Machine.execMatli rd rs s
  | .getl k j => Sys2Proof.Machine.execGetl k j s
  | .getli k j => Sys2Proof.Machine.execGetli k j s
  | .gette j v k => Sys2Proof.Machine.execGette j v k s
  | .gettd j v k => Sys2Proof.Machine.execGettd j v k s
  | .getti j v k => Sys2Proof.Machine.execGetti j v k s
  | .lsenc rd rs => Sys2Proof.Machine.execLsenc rd rs s
  | .lsdec rd rs => Sys2Proof.Machine.execLsdec rd rs s
  | .ldinv rd rs => Sys2Proof.Machine.execLdinv rd rs s
  | .rcon rd imm8 => Sys2Proof.Machine.execRcon rd imm8 s
  | .fstep ra rb rk => Sys2Proof.Machine.execFstep ra rb rk s
  | .getrk rd idx => Sys2Proof.Machine.execGetrk rd idx s

end Sys2Proof.Machine
end

