-- ==== Sys2Proof/Machine/Step.lean ====
section
/-! DEFINITION. One step of the machine: the host's next move (spec/70_reset_and_hazards.md R201). A word is decoded and
executed in the order of spec/60_exceptions.md R177, a reset has the effect of R190, and without a move the core is idle
and holds its state (R200). -/

namespace Sys2Proof.Machine

/-- R201: the core's answer to the host's next move. -/
def step (s : State) : Host.Outcome State Fault Refusal :=
  match takeInput s with
  | none => .next s
  | some (.reset d, t) => .next (applyReset d t)
  | some (.command w, t) =>
    match decode w with
    | .ok i => exec i t
    | .error _ => issueIllegal w t

/-- The host presents the word that spec/opcode_table.json numbers `w`, so that the very next step takes it. There is no
instruction memory (spec/10_state.md R13): nothing else has to be set. Log entry 3. -/
def State.withFetchWord (s : State) (nbits w : Nat) : State := presentWord (BitVec.ofNat 32 (w % 2 ^ nbits)) s

end Sys2Proof.Machine
end

