-- ==== Sys2Proof/Machine/HostText.lean ====
section
/-! DEFINITION. The host's side of the core: the text form of a block (spec/40_block.md R74, R75) with its one error
(spec/60_exceptions.md R171), and the word sequences by which a host loads and reads a block
(spec/70_reset_and_hazards.md R201). A text is a list of characters. The core has no command for text: nothing here
touches State. -/

namespace Sys2Proof.Machine

/-- R170, R171: the host-side error, cause code 1 in the common numbering; the core never records it. -/
inductive HostError where
  /-- Raised by `parseHex` alone; no block is produced, so no zero block stands in for a bad text: safe. -/
  | invalidFormat
  deriving DecidableEq, Repr

/-- R170: the code of the host-side error. -/
def hostErrorCode : HostError → Byte
  | .invalidFormat => 1

/-- R74: the digit of a nibble, one of `0123456789abcdef`. -/
def hexDigit (n : BitVec 4) : Char :=
  if n.toNat < 10 then Char.ofNat (48 + n.toNat) else Char.ofNat (87 + n.toNat)

/-- R75: the value of a digit; every other character, upper case among them, has none. -/
def hexValue (c : Char) : Option (BitVec 4) :=
  if 48 ≤ c.toNat ∧ c.toNat ≤ 57 then some (BitVec.ofNat 4 (c.toNat - 48))
  else if 97 ≤ c.toNat ∧ c.toNat ≤ 102 then some (BitVec.ofNat 4 (c.toNat - 87))
  else none

/-- R74: characters 2j and 2j+1 are byte `x[j]`, high nibble first. -/
def formatHex (x : Block) : List Char :=
  x.toList.flatMap fun b => [hexDigit (highHalf b), hexDigit (lowHalf b)]

/-- R75: the bytes of a text, two digits each; none for an odd length or a character that is no digit. -/
def parseBytes : List Char → Option (List Byte)
  | [] => some []
  | [_] => none
  | a :: b :: rest =>
    match hexValue a, hexValue b, parseBytes rest with
    | some hi, some lo, some bs => some (byteOf hi lo :: bs)
    | _, _, _ => none

/-- R75: `ParseHex(s)`: a block exactly when `s` is 32 characters, each a lower-case hex digit; otherwise the error. -/
def parseHex (s : List Char) : Except HostError Block :=
  match parseBytes s with
  | none => .error .invalidFormat
  | some bs => if h : bs.length = 16 then .ok ⟨bs.toArray, by simpa using h⟩ else .error .invalidFormat

/-- R201 "load a block": 16 `SETB`. -/
def loadBlock (r : Reg) (x : Block) : List Instr := (List.finRange 16).map fun i => .setb r i x[i]

/-- R201 "read a block": 16 `GETB`, the host sampling `GR` after each. -/
def readBlock (r : Reg) : List Instr := (List.finRange 16).map fun i => .getb r i

/-- R192: "To encrypt one block under one key": the 66 commands, with K1, K2 and the plaintext in `B0`, `B1` and `B2`. -/
def encryptOneBlock (k1 k2 x : Block) : List Instr :=
  loadBlock 0 k1 ++ loadBlock 1 k2 ++ [.setkey 0 1] ++ loadBlock 2 x ++ [.enc 2] ++ readBlock 2

end Sys2Proof.Machine
end

