-- ==== Sys2Proof/Machine/Assembler.lean ====
section
/-! DEFINITION. The assembler's text form of a command (spec/30_encoding.md R61) and its two pseudo-instructions `CLR` and
`MOV` (R62). The core never sees either: nothing here touches State. -/

namespace Sys2Proof.Machine

/-- R61: an operand as it is written. -/
inductive Operand where
  | reg (r : Reg)
  | num (n : Nat)
  deriving DecidableEq, Repr

/-- R54, R61: the mnemonic. -/
def mnemonicOf : Instr → String
  | .init => "INIT"
  | .setkey _ _ => "SETKEY"
  | .enc _ => "ENC"
  | .dec _ => "DEC"
  | .setb _ _ _ => "SETB"
  | .getb _ _ => "GETB"
  | .xor _ _ => "XOR"
  | .gfmul _ _ => "GFMUL"
  | .pi _ => "PI"
  | .piinv _ => "PIINV"
  | .s _ _ => "S"
  | .sinv _ _ => "SINV"
  | .r _ _ => "R"
  | .rinv _ _ => "RINV"
  | .l _ _ => "L"
  | .linv _ _ => "LINV"
  | .matl _ _ => "MATL"
  | .matli _ _ => "MATLI"
  | .getl _ _ => "GETL"
  | .getli _ _ => "GETLI"
  | .gette _ _ _ => "GETTE"
  | .gettd _ _ _ => "GETTD"
  | .getti _ _ _ => "GETTI"
  | .lsenc _ _ => "LSENC"
  | .lsdec _ _ => "LSDEC"
  | .ldinv _ _ => "LDINV"
  | .rcon _ _ => "RCON"
  | .fstep _ _ _ => "FSTEP"
  | .getrk _ _ => "GETRK"

/-- R53, R61: the operands in assembler order. -/
def operandsOf : Instr → List Operand
  | .init => []
  | .setkey ra rb => [.reg ra, .reg rb]
  | .enc rd => [.reg rd]
  | .dec rd => [.reg rd]
  | .setb rd idx imm8 => [.reg rd, .num idx.val, .num imm8.toNat]
  | .getb rs idx => [.reg rs, .num idx.val]
  | .xor rd rs => [.reg rd, .reg rs]
  | .gfmul a b => [.num a.toNat, .num b.toNat]
  | .pi imm8 => [.num imm8.toNat]
  | .piinv imm8 => [.num imm8.toNat]
  | .s rd rs => [.reg rd, .reg rs]
  | .sinv rd rs => [.reg rd, .reg rs]
  | .r rd rs => [.reg rd, .reg rs]
  | .rinv rd rs => [.reg rd, .reg rs]
  | .l rd rs => [.reg rd, .reg rs]
  | .linv rd rs => [.reg rd, .reg rs]
  | .matl rd rs => [.reg rd, .reg rs]
  | .matli rd rs => [.reg rd, .reg rs]
  | .getl k i => [.num k.val, .num i.val]
  | .getli k i => [.num k.val, .num i.val]
  | .gette i v k => [.num i.val, .num v.toNat, .num k.val]
  | .gettd i v k => [.num i.val, .num v.toNat, .num k.val]
  | .getti i v k => [.num i.val, .num v.toNat, .num k.val]
  | .lsenc rd rs => [.reg rd, .reg rs]
  | .lsdec rd rs => [.reg rd, .reg rs]
  | .ldinv rd rs => [.reg rd, .reg rs]
  | .rcon rd imm8 => [.reg rd, .num imm8.toNat]
  | .fstep ra rb rk => [.reg ra, .reg rb, .reg rk]
  | .getrk rd idx => [.reg rd, .num idx.val]

/-- R61: a register is written `B0`..`B3`, a number here in decimal. -/
def operandText : Operand → List Char
  | .reg r => 'B' :: Nat.toDigits 10 r.val
  | .num n => Nat.toDigits 10 n

/-- R61: operands "separated by a comma and a space". -/
def joinOperands : List (List Char) → List Char
  | [] => []
  | [a] => a
  | a :: rest => a ++ ',' :: ' ' :: joinOperands rest

/-- R61: the mnemonic, a space, and the operands; a command without operands is its mnemonic alone. -/
def asmText (i : Instr) : List Char :=
  match operandsOf i with
  | [] => (mnemonicOf i).toList
  | ops => (mnemonicOf i).toList ++ ' ' :: joinOperands (ops.map operandText)

/-- R61: split at each comma followed by a space. -/
def splitOperands : List Char → List (List Char)
  | [] => [[]]
  | ',' :: ' ' :: rest => [] :: splitOperands rest
  | c :: rest =>
    match splitOperands rest with
    | [] => [[c]]
    | a :: more => (c :: a) :: more

/-- The value of a digit in base 10 or 16; `0x` numbers are written with digits of either case. -/
def digitValue (base : Nat) (c : Char) : Option Nat :=
  let v := if 48 ≤ c.toNat ∧ c.toNat ≤ 57 then c.toNat - 48
    else if 97 ≤ c.toNat ∧ c.toNat ≤ 102 then c.toNat - 87
    else if 65 ≤ c.toNat ∧ c.toNat ≤ 70 then c.toNat - 55 else base
  if v < base then some v else none

/-- The number of a digit sequence, most significant digit first. -/
def digitsValue (base : Nat) : List Char → Nat → Option Nat
  | [], acc => some acc
  | c :: rest, acc =>
    match digitValue base c with
    | none => none
    | some d => digitsValue base rest (acc * base + d)

/-- R61: "An index or immediate is written in decimal or as `0x` followed by hex digits." -/
def parseNumber : List Char → Option Nat
  | [] => none
  | ['0', 'x'] => none
  | '0' :: 'x' :: ds => digitsValue 16 ds 0
  | ds => digitsValue 10 ds 0

/-- R61: a register or a number. -/
def parseOperand : List Char → Option Operand
  | ['B', '0'] => some (.reg 0)
  | ['B', '1'] => some (.reg 1)
  | ['B', '2'] => some (.reg 2)
  | ['B', '3'] => some (.reg 3)
  | t => (parseNumber t).map .num

/-- A number written for a 4-bit index. -/
def asPos (n : Nat) : Option Pos := if h : n < 16 then some ⟨n, h⟩ else none

/-- A number written for a byte. -/
def asByte (n : Nat) : Option Byte := if n < 256 then some (BitVec.ofNat 8 n) else none

/-- No operands. -/
def formNone (f : Instr) : List Operand → Option Instr
  | [] => some f
  | _ => none

/-- One register. -/
def formR (f : Reg → Instr) : List Operand → Option Instr
  | [.reg a] => some (f a)
  | _ => none

/-- Two registers. -/
def formRR (f : Reg → Reg → Instr) : List Operand → Option Instr
  | [.reg a, .reg b] => some (f a b)
  | _ => none

/-- Three registers. -/
def formRRR (f : Reg → Reg → Reg → Instr) : List Operand → Option Instr
  | [.reg a, .reg b, .reg c] => some (f a b c)
  | _ => none

/-- A register, an index, a byte. -/
def formRPB (f : Reg → Pos → Byte → Instr) : List Operand → Option Instr
  | [.reg a, .num p, .num b] => do return f a (← asPos p) (← asByte b)
  | _ => none

/-- A register and an index. -/
def formRP (f : Reg → Pos → Instr) : List Operand → Option Instr
  | [.reg a, .num p] => do return f a (← asPos p)
  | _ => none

/-- A register and a byte. -/
def formRB (f : Reg → Byte → Instr) : List Operand → Option Instr
  | [.reg a, .num b] => do return f a (← asByte b)
  | _ => none

/-- One byte. -/
def formB (f : Byte → Instr) : List Operand → Option Instr
  | [.num a] => do return f (← asByte a)
  | _ => none

/-- Two bytes. -/
def formBB (f : Byte → Byte → Instr) : List Operand → Option Instr
  | [.num a, .num b] => do return f (← asByte a) (← asByte b)
  | _ => none

/-- Two indexes. -/
def formPP (f : Pos → Pos → Instr) : List Operand → Option Instr
  | [.num p, .num q] => do return f (← asPos p) (← asPos q)
  | _ => none

/-- An index, a byte, an index. -/
def formPBP (f : Pos → Byte → Pos → Instr) : List Operand → Option Instr
  | [.num p, .num b, .num q] => do return f (← asPos p) (← asByte b) (← asPos q)
  | _ => none

/-- R54, R61: what each mnemonic makes of its operands. -/
def assemblerForms : List (String × (List Operand → Option Instr)) := [
  ("INIT", formNone .init),
  ("SETKEY", formRR .setkey),
  ("ENC", formR .enc),
  ("DEC", formR .dec),
  ("SETB", formRPB .setb),
  ("GETB", formRP .getb),
  ("XOR", formRR .xor),
  ("GFMUL", formBB .gfmul),
  ("PI", formB .pi),
  ("PIINV", formB .piinv),
  ("S", formRR .s),
  ("SINV", formRR .sinv),
  ("R", formRR .r),
  ("RINV", formRR .rinv),
  ("L", formRR .l),
  ("LINV", formRR .linv),
  ("MATL", formRR .matl),
  ("MATLI", formRR .matli),
  ("GETL", formPP .getl),
  ("GETLI", formPP .getli),
  ("GETTE", formPBP .gette),
  ("GETTD", formPBP .gettd),
  ("GETTI", formPBP .getti),
  ("LSENC", formRR .lsenc),
  ("LSDEC", formRR .lsdec),
  ("LDINV", formRR .ldinv),
  ("RCON", formRB .rcon),
  ("FSTEP", formRRR .fstep),
  ("GETRK", formRP .getrk)]

/-- R62: the two pseudo-instructions. -/
inductive Pseudo where
  /-- `CLR rd`. -/
  | clr (rd : Reg)
  /-- `MOV rd, rs`. -/
  | mov (rd rs : Reg)
  deriving DecidableEq, Repr

/-- R62: `CLR rd` is `XOR rd, rd`; `MOV rd, rs` is `XOR rd, rd` then `XOR rd, rs`, and `MOV rd, rd` is rejected. -/
def expandPseudo : Pseudo → Option (List Instr)
  | .clr rd => some [.xor rd rd]
  | .mov rd rs => if rd = rs then none else some [.xor rd rd, .xor rd rs]

/-- R61, R62: the commands that a mnemonic with its operands stands for; none where the assembler rejects the line. R61 does
not say whether a line is rejected whose operands no legal word carries (`RCON B0, 0`; `GETRK B0, 11`;
`FSTEP B1, B1, B2`). DESIGN CHOICE, safe: this assembler rejects it; log entry 21. -/
def assembleForm (name : List Char) (ops : List Operand) : Option (List Instr) :=
  match assemblerForms.find? (fun f => f.1.toList == name) with
  | some f => (f.2 ops).bind fun i => if i.wellFormed then some [i] else none
  | none =>
    match ops with
    | [.reg a] => if name = ['C', 'L', 'R'] then expandPseudo (.clr a) else none
    | [.reg a, .reg b] => if name = ['M', 'O', 'V'] then expandPseudo (.mov a b) else none
    | _ => none

/-- R61, R62: one line of assembler text. -/
def assembleLine (line : List Char) : Option (List Instr) :=
  match line.dropWhile (· ≠ ' ') with
  | [] => assembleForm line []
  | _ :: rest =>
    ((splitOperands rest).mapM parseOperand).bind fun ops => assembleForm (line.takeWhile (· ≠ ' ')) ops

end Sys2Proof.Machine
end

