-- ==== Sys2Proof/Safety.lean ====
section
/-! DEFINITION. What a good state and a good run are, in the terms the statements use: the invariants of
spec/10_state.md R22 and spec/60_exceptions.md R175, R176, the frames of R27, the command classes of R177, and the end of
a run (spec/70_reset_and_hazards.md R200). The lists are written from those rules, apart from the meanings. -/

namespace Sys2Proof.Machine

/-- R177: the commands that need `TREADY`. -/
def needsTready : Instr → Bool
  | .gfmul _ _ | .r _ _ | .rinv _ _ | .l _ _ | .linv _ _ | .matl _ _ | .matli _ _ | .getl _ _ | .getli _ _ => true
  | .gette _ _ _ | .gettd _ _ _ | .getti _ _ _ | .lsenc _ _ | .lsdec _ _ | .ldinv _ _ => true
  | .rcon _ _ | .fstep _ _ _ | .enc _ | .dec _ | .getrk _ _ => true
  | .init | .setkey _ _ | .setb _ _ _ | .getb _ _ | .xor _ _ | .pi _ | .piinv _ | .s _ _ | .sinv _ _ => false

/-- R177: the commands that need `KVALID` as well. -/
def needsKvalid : Instr → Bool
  | .enc _ | .dec _ | .getrk _ _ => true
  | .init | .setkey _ _ | .setb _ _ _ | .getb _ _ | .xor _ _ | .pi _ | .piinv _ | .s _ _ | .sinv _ _ => false
  | .gfmul _ _ | .r _ _ | .rinv _ _ | .l _ _ | .linv _ _ | .matl _ _ | .matli _ _ | .getl _ _ | .getli _ _ => false
  | .gette _ _ _ | .gettd _ _ _ | .getti _ _ _ | .lsenc _ _ | .lsdec _ _ | .ldinv _ _ => false
  | .rcon _ _ | .fstep _ _ _ => false

/-- R27: the block registers a command may write. -/
def writtenBlocks : Instr → List Reg
  | .enc rd | .dec rd | .setb rd _ _ | .rcon rd _ | .getrk rd _ => [rd]
  | .xor rd _ | .s rd _ | .sinv rd _ | .r rd _ | .rinv rd _ | .l rd _ | .linv rd _ => [rd]
  | .matl rd _ | .matli rd _ | .lsenc rd _ | .lsdec rd _ | .ldinv rd _ => [rd]
  | .fstep ra rb _ => [ra, rb]
  | .init | .setkey _ _ | .getb _ _ | .gfmul _ _ | .pi _ | .piinv _ | .getl _ _ | .getli _ _ => []
  | .gette _ _ _ | .gettd _ _ _ | .getti _ _ _ => []

/-- R10, R27: the commands that write `GR`. -/
def writesGr : Instr → Bool
  | .getb _ _ | .gfmul _ _ | .pi _ | .piinv _ | .getl _ _ | .getli _ _ => true
  | .gette _ _ _ | .gettd _ _ _ | .getti _ _ _ => true
  | .enc _ | .dec _ | .setb _ _ _ | .rcon _ _ | .getrk _ _ | .fstep _ _ _ | .init | .setkey _ _ => false
  | .xor _ _ | .s _ _ | .sinv _ _ | .r _ _ | .rinv _ _ | .l _ _ | .linv _ _ => false
  | .matl _ _ | .matli _ _ | .lsenc _ _ | .lsdec _ _ | .ldinv _ _ => false

/-- The frame of a command whose one destination is the block register `rd`: everything else is unchanged. -/
structure OnlyBlockChanged (rd : Reg) (s t : State) : Prop where
  blocks : ∀ r, r ≠ rd → t.block r = s.block r
  gr : t.gr = s.gr
  status : t.status = s.status
  cause : t.cause = s.cause
  finfo : t.finfo = s.finfo
  rk : t.rk = s.rk
  tables : t.tables = s.tables
  inputs : t.inputs = s.inputs

/-- The frame of a command whose destination is `GR`: everything else is unchanged. -/
structure OnlyGrChanged (s t : State) : Prop where
  blocks : ∀ r, t.block r = s.block r
  status : t.status = s.status
  cause : t.cause = s.cause
  finfo : t.finfo = s.finfo
  rk : t.rk = s.rk
  tables : t.tables = s.tables
  inputs : t.inputs = s.inputs

/-- R22: the six reachable values of `STATUS`: RESET, TABLES, KEYED, and each with `FAULT` added. -/
def StatusLegal (s : State) : Prop := s.status ∈ [0x00, 0x01, 0x03, 0x04, 0x05, 0x07]

/-- R22(b): while `TREADY` = 1 the six generated tables are the fixed constants of R121. -/
def TablesHold (s : State) : Prop := s.tready = true → s.tables = generateTables

/-- R14, R17: while `KVALID` = 1, `RK` is the expansion of the key it keeps as `RK[1]`, `RK[2]`. -/
def KeysHold (s : State) : Prop := s.kvalid = true → s.rk = keySchedule s.rk[0] s.rk[1]

/-- R15, R16, R170, R177: `CAUSE` and `FINFO` are zero while `FAULT` = 0 and name the first fault afterwards. -/
def FaultRecordHolds (s : State) : Prop :=
  (s.faulted = false → s.cause = 0 ∧ s.finfo = 0) ∧
  (s.faulted = true →
    (s.cause = 3 ∧ ∃ e, decode s.finfo = .error e) ∨
    (s.cause = 2 ∧ s.tready = false ∧ ∃ i, decode s.finfo = .ok i ∧ needsTready i = true) ∨
    (s.cause = 4 ∧ s.tready = true ∧ s.kvalid = false ∧ ∃ i, decode s.finfo = .ok i ∧ needsKvalid i = true))

/-- A core that has not faulted: the run so far has been successful (R200). -/
def Succeeded (s : State) : Prop := s.faulted = false

/-- R178, R191: a core on which the commands that need the tables execute. -/
def TablesReady (s : State) : Prop := s.faulted = false ∧ s.tready = true

/-- R191: a core on which every command executes. -/
def Keyed (s : State) : Prop := s.faulted = false ∧ s.tready = true ∧ s.kvalid = true

end Sys2Proof.Machine
end

