-- ==== Sys2Proof/Certificates/Slice0/Obligations.lean ====
section
/-! DEFINITION. The statements for the provers: what the rules of spec/ say the commands and the core do. Each docstring
names the rule; where a statement rests on a choice of this model, its docstring names the log entry. -/

open Sys2Proof Sys2Proof.Machine

namespace Sys2Proof.Statements

/-- R54: the opcodes of the 29 commands. -/
def assignedOpcodes : List Byte :=
  [0x01, 0x02, 0x03, 0x04, 0x10, 0x11, 0x12, 0x20, 0x30, 0x31, 0x32, 0x33, 0x40, 0x41, 0x42, 0x43, 0x44, 0x45, 0x46, 0x47,
    0x50, 0x51, 0x52, 0x58, 0x59, 0x5A, 0x60, 0x61, 0x62]

/-- R52, R55 to R58: a word is legal when, by the format of its opcode, every unused field is zero, every register field
is at most 3, and the extra checks hold. -/
def FieldsLegal (f : Fields) : Prop :=
  -- Z
  (f.op = 0x01 ∧ f.rd = 0 ∧ f.rs = 0 ∧ f.rt = 0 ∧ f.idx = 0 ∧ f.imm8 = 0) ∨
  -- D
  (f.op ∈ [0x03, 0x04] ∧ f.rd ≤ 3 ∧ f.rs = 0 ∧ f.rt = 0 ∧ f.idx = 0 ∧ f.imm8 = 0) ∨
  -- RR
  (f.op ∈ [0x02, 0x12, 0x32, 0x33, 0x40, 0x41, 0x42, 0x43, 0x44, 0x45, 0x58, 0x59, 0x5A] ∧
    f.rd ≤ 3 ∧ f.rs ≤ 3 ∧ f.rt = 0 ∧ f.idx = 0 ∧ f.imm8 = 0) ∨
  -- RRR, with R58
  (f.op = 0x61 ∧ f.rd ≤ 3 ∧ f.rs ≤ 3 ∧ f.rt ≤ 3 ∧ f.idx = 0 ∧ f.imm8 = 0 ∧ f.rd ≠ f.rs) ∨
  -- DXI
  (f.op = 0x10 ∧ f.rd ≤ 3 ∧ f.rs = 0 ∧ f.rt = 0) ∨
  -- SX
  (f.op = 0x11 ∧ f.rd = 0 ∧ f.rs ≤ 3 ∧ f.rt = 0 ∧ f.imm8 = 0) ∨
  -- DX, with R57
  (f.op = 0x62 ∧ f.rd ≤ 3 ∧ f.rs = 0 ∧ f.rt = 0 ∧ f.imm8 = 0 ∧ 1 ≤ f.idx ∧ f.idx ≤ 10) ∨
  -- DI, with R57
  (f.op = 0x60 ∧ f.rd ≤ 3 ∧ f.rs = 0 ∧ f.rt = 0 ∧ f.idx = 0 ∧ 1 ≤ f.imm8 ∧ f.imm8 ≤ 32) ∨
  -- I
  (f.op ∈ [0x30, 0x31] ∧ f.rd = 0 ∧ f.rs = 0 ∧ f.rt = 0 ∧ f.idx = 0) ∨
  -- AB
  (f.op = 0x20 ∧ f.rd = 0 ∧ f.rs = 0) ∨
  -- KI
  (f.op ∈ [0x46, 0x47] ∧ f.rd = 0 ∧ f.rs = 0 ∧ f.imm8 = 0) ∨
  -- T
  (f.op ∈ [0x50, 0x51, 0x52] ∧ f.rd = 0 ∧ f.rs = 0)

/-- R125: `LMAT` as the rule lists it, row by row. -/
def listedLmat : Matrix :=
  #v[
    blockOfInt 0xcf9874bf938ef2f30abff6a9ea8e4d6e,
    blockOfInt 0x6e20c6da9048899cc164b82d8644d0a2,
    blockOfInt 0xa2c8877068431c2ba163306b9f30e376,
    blockOfInt 0x7633100c1c11d66aa6d7f6490714e872,
    blockOfInt 0x72f26bca20eb02a48dd4c40165dd4c6c,
    blockOfInt 0x6c76ec0cc5bcaf6ea3e190580e02c348,
    blockOfInt 0x48d56217062dc4e7d5eb997852f5167a,
    blockOfInt 0x7ae64e1abb2ef1bed4af37b1d42a6eb8,
    blockOfInt 0xb8498714cb8dab49096c2a01608e4b5d,
    blockOfInt 0x5dd4b82f8d12eef608540ff398c87f27,
    blockOfInt 0x279fbe681a7cadc9842febfec648a2bd,
    blockOfInt 0xbd955e30e960bf10ef39ec917f488910,
    blockOfInt 0x10e9d0d9f3943daf7bff649152f80ddd,
    blockOfInt 0xdd9975ca97445ae030a631d3df486484,
    blockOfInt 0x842d74965d776fde54b48dd1443ca594,
    blockOfInt 0x94208510c2c001fb01c0c21085209401]

/-- R125: `LINV` as the rule lists it, row by row. -/
def listedLinv : Matrix :=
  #v[
    blockOfInt 0x0194208510c2c001fb01c0c210852094,
    blockOfInt 0x94a53c44d18db454de6f775d96742d84,
    blockOfInt 0x846448dfd331a630e05a4497ca7599dd,
    blockOfInt 0xdd0df8529164ff7baf3d94f3d9d0e910,
    blockOfInt 0x1089487f91ec39ef10bf60e9305e95bd,
    blockOfInt 0xbda248c6feeb2f84c9ad7c1a68be9f27,
    blockOfInt 0x277fc898f30f5408f6ee128d2fb8d45d,
    blockOfInt 0x5d4b8e60012a6c0949ab8dcb148749b8,
    blockOfInt 0xb86e2ad4b137afd4bef12ebb1a4ee67a,
    blockOfInt 0x7a16f5527899ebd5e7c42d061762d548,
    blockOfInt 0x48c3020e5890e1a36eafbcc50cec766c,
    blockOfInt 0x6c4cdd6501c4d48da402eb20ca6bf272,
    blockOfInt 0x72e8140749f6d7a66ad6111c0c103376,
    blockOfInt 0x76e3309f6b3063a12b1c43687087c8a2,
    blockOfInt 0xa2d044862db864c19c894890dac6206e,
    blockOfInt 0x6e4d8eeaa9f6bf0af3f28e93bf7498cf]

/-- R125: the identity matrix. -/
def identityMatrix : Matrix := Vector.ofFn fun r : Pos => Vector.ofFn fun c : Pos => if r = c then 1 else 0

/-- R83: the powers of 0x02. -/
def gfPowTwo : Nat → Byte
  | 0 => 1
  | n + 1 => gfMul 2 (gfPowTwo n)

end Sys2Proof.Statements

open Sys2Proof.Statements

/-! ### Encoding -/

/-- R54, R61 and the words of spec/95_test_vectors.md: one word for each of the 29 commands. -/
def Obligations.ManualWordsDecode : Prop :=
  decode 0x01000000 = .ok .init ∧ decode 0x02010000 = .ok (.setkey 0 1) ∧ decode 0x03200000 = .ok (.enc 2) ∧
  decode 0x04200000 = .ok (.dec 2) ∧ decode 0x10000E01 = .ok (.setb 0 14 0x01) ∧ decode 0x11000F00 = .ok (.getb 0 15) ∧
  decode 0x12230000 = .ok (.xor 2 3) ∧ decode 0x20000280 = .ok (.gfmul 0x02 0x80) ∧ decode 0x300000FF = .ok (.pi 0xff) ∧
  decode 0x310000B6 = .ok (.piinv 0xb6) ∧ decode 0x32200000 = .ok (.s 2 0) ∧ decode 0x33100000 = .ok (.sinv 1 0) ∧
  decode 0x40100000 = .ok (.r 1 0) ∧ decode 0x41100000 = .ok (.rinv 1 0) ∧ decode 0x42220000 = .ok (.l 2 2) ∧
  decode 0x43100000 = .ok (.linv 1 0) ∧ decode 0x44100000 = .ok (.matl 1 0) ∧ decode 0x45100000 = .ok (.matli 1 0) ∧
  decode 0x4600F000 = .ok (.getl 15 0) ∧ decode 0x47000100 = .ok (.getli 0 1) ∧
  decode 0x5000F3FF = .ok (.gette 15 0xff 3) ∧ decode 0x510074FC = .ok (.gettd 7 0xfc 4) ∧
  decode 0x5200E101 = .ok (.getti 14 0x01 1) ∧ decode 0x58300000 = .ok (.lsenc 3 0) ∧
  decode 0x59100000 = .ok (.lsdec 1 0) ∧ decode 0x5A100000 = .ok (.ldinv 1 0) ∧ decode 0x60200001 = .ok (.rcon 2 1) ∧
  decode 0x61012000 = .ok (.fstep 0 1 2) ∧ decode 0x62300A00 = .ok (.getrk 3 10)

/-- R51, R53, R54: decoding the word of a well-formed command gives the command, every operand at every value. -/
def Obligations.EncodedCommandDecodesToItself : Prop :=
  ∀ i : Instr, i.wellFormed = true → decode (encode i) = .ok i

/-- R51, R60: a legal word names exactly one command, which is well formed and whose word it is. -/
def Obligations.DecodedCommandEncodesToItsWord : Prop :=
  ∀ (w : Word) (i : Instr), decode w = .ok i → i.wellFormed = true ∧ encode i = w

/-- R55 to R58: the words the decoder accepts, which it finds by mask and pattern, are exactly those whose fields the
format of their opcode allows. -/
def Obligations.LegalWordsAreThoseWithLegalFields : Prop :=
  ∀ w : Word, (∃ i, decode w = .ok i) ↔ FieldsLegal (fieldsOf w)

/-- R59, R60 step 1: the unassigned opcodes are the other 227, 0x00 and 0xFF among them. -/
def Obligations.OpcodesOutsideTheMapAreUnassigned : Prop :=
  (∀ w : Word, decode w = .error .unassignedOpcode ↔ (fieldsOf w).op ∉ assignedOpcodes) ∧
  ((List.range 256).filter fun n => BitVec.ofNat 8 n ∉ assignedOpcodes).length = 227 ∧
  decode 0x00000000 = .error .unassignedOpcode ∧ decode 0xFFFFFFFF = .error .unassignedOpcode

/-- R57, R58: operands that no legal word carries. The word their fields would make does not decode, and a command built
with them is `IllegalCommand`; that `exec` answers so is the model's own choice (log entry 7). -/
def Obligations.IllFormedOperandsAreIllegalCommands : Prop :=
  ∀ (i : Instr) (s : State), i.wellFormed = false →
    decode (encode i) = .error .extraCheck ∧
    (s.faulted = false →
      exec i s = .next { s with status := s.status ||| 0x04, cause := 3, finfo := encode i })

/-! ### The step, faults and reset -/

/-- R177: a step on a word that decodes is the command's execution, on the state from which the word has been taken. -/
def Obligations.StepRunsTheDecodedCommand : Prop :=
  ∀ (s : State) (w : Word) (rest : List HostMove) (i : Instr),
    s.inputs = .command w :: rest → decode w = .ok i → step s = exec i { s with inputs := rest }

/-- R177: the order of checks for one word. `t` is the state from which the word has been taken. -/
def Obligations.EachWordIsCheckedInOrder : Prop :=
  ∀ (s t : State) (w : Word) (rest : List HostMove),
    s.inputs = .command w :: rest → t = { s with inputs := rest } →
    (s.faulted = true → step s = .next t) ∧
    (s.faulted = false →
      (∀ e, decode w = .error e →
        step s = .next { t with status := t.status ||| 0x04, cause := 3, finfo := w }) ∧
      (∀ i, decode w = .ok i →
        (needsTready i = true → s.tready = false →
          step s = .next { t with status := t.status ||| 0x04, cause := 2, finfo := w }) ∧
        (needsKvalid i = true → s.tready = true → s.kvalid = false →
          step s = .next { t with status := t.status ||| 0x04, cause := 4, finfo := w }) ∧
        ((needsTready i = true → s.tready = true) → (needsKvalid i = true → s.kvalid = true) →
          ∃ u, step s = .next u ∧ u.faulted = false ∧ u.cause = s.cause ∧ u.finfo = s.finfo)))

/-- R175: when a word raises a fault, the core writes `FAULT`, `CAUSE` and `FINFO` and nothing else; `FINFO` is the word
presented. -/
def Obligations.FaultEntryWritesThreeRegisters : Prop :=
  ∀ (s t : State) (w : Word) (rest : List HostMove),
    s.inputs = .command w :: rest → s.faulted = false → step s = .next t → t.faulted = true →
    t = { s with inputs := rest, status := s.status ||| 0x04, cause := t.cause, finfo := w } ∧
    (t.cause = 2 ∨ t.cause = 3 ∨ t.cause = 4)

/-- R176, R178: a faulted core refuses every word, legal or not, without a change of state, and only reset leaves it. -/
def Obligations.FaultedCoreRefusesUntilReset : Prop :=
  ∀ (s : State) (rest : List HostMove), s.faulted = true →
    (∀ w, s.inputs = .command w :: rest → step s = .next { s with inputs := rest }) ∧
    (∀ d, s.inputs = .reset d :: rest → ∃ t, step s = .next t ∧ t.faulted = false)

/-- R176, R200: any number of words presented to a faulted core leaves every piece of its state as it was. -/
def Obligations.FaultedRunChangesNothing : Prop :=
  ∀ (ws : List Word) (rest : List HostMove) (s : State),
    s.faulted = true → s.inputs = ws.map HostMove.command ++ rest →
    Host.Core.run Sys2Proof.core ws.length s = .next { s with inputs := rest }

/-- R200: without a move of the host the core holds every piece of its state. That a step then answers the same state is
the model's own choice (log entry 11). -/
def Obligations.IdleCoreHoldsItsState : Prop :=
  ∀ s : State, s.inputs = [] → step s = .next s

/-- R25, R190: a reset, for every draw of the unspecified values and from every state, a faulted one among them. That the
draw is carried by the move is the model's own choice (log entry 4). -/
def Obligations.ResetMoveLeavesTheResetState : Prop :=
  ∀ (s : State) (d : Draw) (rest : List HostMove), s.inputs = .reset d :: rest →
    ∃ t, step s = .next t ∧ t.status = 0x00 ∧ t.cause = 0x00 ∧ t.finfo = 0x00000000 ∧
      t.blocks = d.blocks ∧ t.gr = d.gr ∧ t.rk = d.rk ∧ t.tables = d.tables ∧ t.inputs = rest

/-- R25: the values the spec gives the state after reset; nothing is claimed of `B0..B3` and `GR`. -/
def Obligations.ResetZeroesTheStatusRegisters : Prop :=
  State.reset.status = 0x00 ∧ State.reset.cause = 0x00 ∧ State.reset.finfo = 0x00000000 ∧
  State.reset.tready = false ∧ State.reset.kvalid = false ∧ State.reset.faulted = false

/-- R198: "every command terminates and the core cannot hang". That fault entry and a refused word are next states is the
model's own reading (log entry 5, DEDUCED: the type of faults is empty), and that an idle step answers a next state is its
own choice (log entry 11). -/
def Obligations.EveryStepAnswersANextState : Prop :=
  ∀ s : State, ∃ t, step s = .next t

/-! ### Invariants -/

/-- R14, R22: `STATUS` stays one of the six reachable values: bits 7:3 read as zero, and `KVALID` implies `TREADY`. -/
def Obligations.StatusStaysLegal : Prop :=
  ∀ s t : State, StatusLegal s → step s = .next t → StatusLegal t

/-- R22(b), R121: while `TREADY` = 1 the six generated tables are the constants of R121. -/
def Obligations.ReadyTablesStayTheConstants : Prop :=
  ∀ s t : State, TablesHold s → step s = .next t → TablesHold t

/-- R14, R17, R154: while `KVALID` = 1, `RK` is the expansion of the master key that survives as `RK[1]` and `RK[2]`. -/
def Obligations.ValidRoundKeysStayTheExpansion : Prop :=
  ∀ s t : State, KeysHold s → step s = .next t → KeysHold t

/-- R15, R16, R176: `CAUSE` and `FINFO` are zero until the first fault and describe it truly ever after. -/
def Obligations.FaultRecordStaysTrue : Prop :=
  ∀ s t : State, FaultRecordHolds s → step s = .next t → FaultRecordHolds t

/-- The four invariants hold at the state after reset and after every reset move, whatever it draws. -/
def Obligations.ResetMeetsTheInvariants : Prop :=
  (StatusLegal State.reset ∧ TablesHold State.reset ∧ KeysHold State.reset ∧ FaultRecordHolds State.reset) ∧
  ∀ (d : Draw) (s : State), StatusLegal (applyReset d s) ∧ TablesHold (applyReset d s) ∧ KeysHold (applyReset d s) ∧
    FaultRecordHolds (applyReset d s)

/-! ### Whole-machine rules -/

/-- R14: no step but a reset clears a flag; `TREADY` is set by `INIT` and `SETKEY` alone, `KVALID` by `SETKEY` alone, `FAULT`
by fault entry on a presented word alone (R175). -/
def Obligations.FlagsAreSetByTheirCommandsAndClearedByReset : Prop :=
  ∀ s t : State, step s = .next t → (∀ d rest, s.inputs ≠ .reset d :: rest) →
    (s.tready = true → t.tready = true) ∧ (s.kvalid = true → t.kvalid = true) ∧
    (s.faulted = true → t.faulted = true) ∧
    (t.tready ≠ s.tready → ∃ w rest i, s.inputs = .command w :: rest ∧ decode w = .ok i ∧
      (i = .init ∨ ∃ ra rb, i = .setkey ra rb)) ∧
    (t.kvalid ≠ s.kvalid → ∃ w rest i, s.inputs = .command w :: rest ∧ decode w = .ok i ∧ ∃ ra rb, i = .setkey ra rb) ∧
    (t.faulted ≠ s.faulted → ∃ w rest, s.inputs = .command w :: rest ∧
      t = { s with inputs := rest, status := s.status ||| 0x04, cause := t.cause, finfo := w } ∧
      (t.cause = 2 ∨ t.cause = 3 ∨ t.cause = 4)) ∧
    reservedBits t.status = reservedBits s.status

/-- R17, R36, R181: no command writes `RK` but `SETKEY`, and no command writes a table but `INIT` and `SETKEY`. -/
def Obligations.OnlyLifecycleCommandsWriteKeysAndTables : Prop :=
  ∀ (i : Instr) (s t : State), exec i s = .next t →
    (t.rk ≠ s.rk → ∃ ra rb, i = .setkey ra rb) ∧
    (t.tables ≠ s.tables → i = .init ∨ ∃ ra rb, i = .setkey ra rb)

/-- R12, R14, R27: the frame of all 29 commands, their faulting forms among them, by the columns of R27: block registers,
`GR`, `RK`, the tables (`SETKEY` writes them only if `TREADY` was 0), `STATUS` flag by flag, the fault record. -/
def Obligations.CommandsWriteOnlyTheirDestinations : Prop :=
  ∀ (i : Instr) (s t : State), exec i s = .next t →
    (∀ r, r ∉ writtenBlocks i → t.block r = s.block r) ∧
    (writesGr i = false → t.gr = s.gr) ∧
    (t.faulted = s.faulted → t.cause = s.cause ∧ t.finfo = s.finfo) ∧
    (t.faulted ≠ s.faulted → t.blocks = s.blocks ∧ t.gr = s.gr ∧ t.rk = s.rk ∧ t.tables = s.tables ∧
      t.tready = s.tready ∧ t.kvalid = s.kvalid) ∧
    ((∀ ra rb, i ≠ .setkey ra rb) → t.rk = s.rk ∧ t.kvalid = s.kvalid) ∧
    (i ≠ .init → (∀ ra rb, i ≠ .setkey ra rb) → t.tables = s.tables ∧ t.tready = s.tready ∧
      (t.faulted = s.faulted → t.status = s.status)) ∧
    (∀ ra rb, i = .setkey ra rb → s.tready = true → t.tables = s.tables) ∧
    reservedBits t.status = reservedBits s.status ∧ t.inputs = s.inputs

/-- R26: the host sees a block register only through `GETB`: whatever the registers hold, every other command leaves the
same outputs. -/
def Obligations.BlockRegistersShowOnlyThroughGetb : Prop :=
  ∀ (i : Instr) (s t t' : State) (b : Vector Block 4), (∀ rs idx, i ≠ .getb rs idx) →
    exec i s = .next t → exec i { s with blocks := b } = .next t' → sample t' = sample t

/-- R17: nothing but `ENC`, `DEC` and `GETRK` reads `RK`: whatever it holds, every other command leaves the same state but
for `RK` itself. -/
def Obligations.RoundKeysShowOnlyThroughTheirReaders : Prop :=
  ∀ (i : Instr) (s t t' : State) (k : Vector Block Config.nrk),
    (∀ rd, i ≠ .enc rd) → (∀ rd, i ≠ .dec rd) → (∀ rd idx, i ≠ .getrk rd idx) →
    exec i s = .next t → exec i { s with rk := k } = .next t' → t' = { t with rk := t'.rk }

/-- R34: the byte-result commands and `GETRK` change nothing but their destination, and these and `INIT` and `SETKEY`,
issued twice in a row, leave the state of issuing them once. -/
def Obligations.ReadsHaveNoSideEffectAndRepeatIdempotently : Prop :=
  ∀ (i : Instr) (s t : State), exec i s = .next t →
    (writesGr i = true → s.faulted = false → t.faulted = false → OnlyGrChanged s t) ∧
    (∀ rd idx, i = .getrk rd idx → s.faulted = false → t.faulted = false → OnlyBlockChanged rd s t) ∧
    ((writesGr i = true ∨ (∃ rd idx, i = .getrk rd idx) ∨ i = .init ∨ ∃ ra rb, i = .setkey ra rb) →
      exec i t = .next t)

/-! ### Block, field and substitution commands -/

/-- R70, R71: `XOR`; with one register for both it clears it. -/
def Obligations.XorAddsBytewise : Prop :=
  ∀ (rd rs : Reg) (s : State), s.faulted = false →
    ∃ t, exec (.xor rd rs) s = .next t ∧ (∀ k : Pos, (t.block rd)[k] = (s.block rd)[k] ^^^ (s.block rs)[k]) ∧
      (rd = rs → t.block rd = zeroBlock) ∧ OnlyBlockChanged rd s t

/-- R72: `SETB`. -/
def Obligations.SetbWritesOneByte : Prop :=
  ∀ (rd : Reg) (idx : Pos) (imm8 : Byte) (s : State), s.faulted = false →
    ∃ t, exec (.setb rd idx imm8) s = .next t ∧ (t.block rd)[idx] = imm8 ∧
      (∀ k : Pos, k ≠ idx → (t.block rd)[k] = (s.block rd)[k]) ∧ OnlyBlockChanged rd s t

/-- R73: `GETB`. -/
def Obligations.GetbReadsOneByte : Prop :=
  ∀ (rs : Reg) (idx : Pos) (s : State), s.faulted = false →
    ∃ t, exec (.getb rs idx) s = .next t ∧ t.gr = (s.block rs)[idx] ∧ OnlyGrChanged s t

/-- R84, R85: `GFMUL` reads the field product from `MUL`. -/
def Obligations.GfmulReadsTheFieldProduct : Prop :=
  ∀ (a b : Byte) (s : State), TablesHold s → TablesReady s →
    ∃ t, exec (.gfmul a b) s = .next t ∧ t.gr = gfMul a b ∧ OnlyGrChanged s t

/-- R91, R94, R95: `PI` and `PIINV` need no readiness; `PIINV` gives the byte that `PI` takes to its operand. -/
def Obligations.SboxCommandsReadTheTables : Prop :=
  ∀ (v : Byte) (s : State), s.faulted = false →
    (∃ t, exec (.pi v) s = .next t ∧ t.gr = sbox v ∧ OnlyGrChanged s t) ∧
    (∃ t, exec (.piinv v) s = .next t ∧ sbox t.gr = v ∧ OnlyGrChanged s t)

/-- R93, R96, R97: `S` and `SINV`, bytewise. -/
def Obligations.SubstitutionCommandsActBytewise : Prop :=
  ∀ (rd rs : Reg) (s : State), s.faulted = false →
    (∃ t, exec (.s rd rs) s = .next t ∧ (∀ k : Pos, (t.block rd)[k] = sbox (s.block rs)[k]) ∧ OnlyBlockChanged rd s t) ∧
    (∃ t, exec (.sinv rd rs) s = .next t ∧ (∀ k : Pos, (t.block rd)[k] = sboxInv (s.block rs)[k]) ∧
      OnlyBlockChanged rd s t)

/-- R83: the laws of `gf_mul`. -/
def Obligations.FieldMultiplicationLaws : Prop :=
  (∀ a, gfMul a 0 = 0 ∧ gfMul 0 a = 0) ∧ (∀ a b, gfMul a b = gfMul b a) ∧ (∀ a, gfMul a 1 = a) ∧
  (∀ a b c, gfMul a (b ^^^ c) = gfMul a b ^^^ gfMul a c) ∧
  (∀ a b c, gfMul (gfMul a b) c = gfMul a (gfMul b c)) ∧
  (∀ a, a ≠ 0 → ∃! b, gfMul a b = 1) ∧ gfMul 0x02 0xE1 = 1 ∧
  (∀ b : Byte, b.toNat < 0x80 → gfMul 2 b = b <<< 1) ∧ (∀ b : Byte, 0x80 ≤ b.toNat → gfMul 2 b = b <<< 1 ^^^ 0xC3) ∧
  (List.range 17).map gfPowTwo =
    [0x01, 0x02, 0x04, 0x08, 0x10, 0x20, 0x40, 0x80, 0xc3, 0x45, 0x8a, 0xd7, 0x6d, 0xda, 0x77, 0xee, 0x1f] ∧
  gfPowTwo 255 = 1 ∧ ∀ n, 0 < n → n < 255 → gfPowTwo n ≠ 1

/-- R92: the two tables are inverse permutations; `PI` has no fixed point; the four values the rule gives; and both are
valid right after reset, where the commands that read them execute. -/
def Obligations.SboxTablesAreInversePermutations : Prop :=
  (∀ x, sboxInv (sbox x) = x) ∧ (∀ y, sbox (sboxInv y) = y) ∧ (∀ x, sbox x ≠ x) ∧
  sbox 0x00 = 0xfc ∧ sbox 0xa5 = 0x00 ∧ sboxInv 0x00 = 0xa5 ∧ sboxInv 0xfc = 0x00 ∧
  ∀ (v : Byte) (d : Draw) (s : State),
    exec (.pi v) (applyReset d s) = .next ((applyReset d s).setGr (sbox v)) ∧
    exec (.piinv v) (applyReset d s) = .next ((applyReset d s).setGr (sboxInv v))

/-- R93: S and S_inv act byte by byte and undo each other; S is not linear. -/
def Obligations.SubstitutionsAreBytewiseAndInverse : Prop :=
  (∀ (x : Block) (i : Pos), (transS x)[i] = sbox x[i] ∧ (transSInv x)[i] = sboxInv x[i]) ∧
  (∀ x, transSInv (transS x) = x) ∧ (∀ x, transS (transSInv x) = x) ∧
  transS zeroBlock = blockOfInt 0xfcfcfcfcfcfcfcfcfcfcfcfcfcfcfcfc ∧ transS zeroBlock ≠ zeroBlock

/-! ### Diffusion and its matrices -/

/-- R101 to R103, R106, R107: one step of R and of R_inv. -/
def Obligations.StepCommandsShiftAndFeedBack : Prop :=
  ∀ (rd rs : Reg) (s : State), TablesHold s → TablesReady s →
    (∃ t, exec (.r rd rs) s = .next t ∧
      (t.block rd)[0] = (xorSum fun i => gfMul tv[i] (s.block rs)[i]) ∧
      (∀ (i : Nat) (h : i < 15), (t.block rd)[i + 1] = (s.block rs)[i]) ∧ OnlyBlockChanged rd s t) ∧
    (∃ t, exec (.rinv rd rs) s = .next t ∧
      (∀ (j : Nat) (h : j < 15), (t.block rd)[j] = (s.block rs)[j + 1]) ∧
      (t.block rd)[15] =
        (xorSum fun i => gfMul tv[i] (if h : i.val < 15 then (s.block rs)[i.val + 1] else (s.block rs)[0])) ∧
      OnlyBlockChanged rd s t)

/-- R104, R108, R109: `L` is 16 applications of R, `LINV` 16 of R_inv. -/
def Obligations.DiffusionCommandsApplySixteenSteps : Prop :=
  ∀ (rd rs : Reg) (s : State), TablesHold s → TablesReady s →
    (∃ t, exec (.l rd rs) s = .next t ∧ t.block rd = (stepR gfMul)^[16] (s.block rs) ∧ OnlyBlockChanged rd s t) ∧
    (∃ t, exec (.linv rd rs) s = .next t ∧ t.block rd = (stepRInv gfMul)^[16] (s.block rs) ∧ OnlyBlockChanged rd s t)

/-- R105: L and L_inv, R and R_inv undo each other; all four are linear and fix `ZERO`; L is no involution. -/
def Obligations.DiffusionIsLinearAndInvertible : Prop :=
  (∀ x, transLInv gfMul (transL gfMul x) = x) ∧ (∀ x, transL gfMul (transLInv gfMul x) = x) ∧
  (∀ x, stepRInv gfMul (stepR gfMul x) = x) ∧ (∀ x, stepR gfMul (stepRInv gfMul x) = x) ∧
  (∀ a b, stepR gfMul (xorBlock a b) = xorBlock (stepR gfMul a) (stepR gfMul b)) ∧
  (∀ a b, stepRInv gfMul (xorBlock a b) = xorBlock (stepRInv gfMul a) (stepRInv gfMul b)) ∧
  (∀ a b, transL gfMul (xorBlock a b) = xorBlock (transL gfMul a) (transL gfMul b)) ∧
  (∀ a b, transLInv gfMul (xorBlock a b) = xorBlock (transLInv gfMul a) (transLInv gfMul b)) ∧
  stepR gfMul zeroBlock = zeroBlock ∧ transL gfMul zeroBlock = zeroBlock ∧ transLInv gfMul zeroBlock = zeroBlock ∧
  transL gfMul (blockOfInt 0x64a59400000000000000000000000000) = blockOfInt 0xd456584dd0e3e84cc3166e4b7fa2890d ∧
  transL gfMul (blockOfInt 0xd456584dd0e3e84cc3166e4b7fa2890d) = blockOfInt 0x79d26221b87b584cd42fbc4ffea5de9a

/-- R122 to R125: the matrices that the four squarings give are the listed ones, inverse to each other and each the other
turned end for end. -/
def Obligations.GeneratedMatricesAreTheListedOnes : Prop :=
  generateTables.lmat = listedLmat ∧ generateTables.linv = listedLinv ∧
  matMul listedLmat listedLinv = identityMatrix ∧
  ∀ (k i : Nat) (hk : k < 16) (hi : i < 16), listedLinv[k][i] = listedLmat[15 - k][15 - i]

/-- R124, R129, R130, R143: on every block `MATL` is `L`, and `MATLI`, `LDINV` and `LINV` are one function. -/
def Obligations.MatrixAndFusedDatapathsEqualTheSteps : Prop :=
  ∀ (rd rs : Reg) (s : State), TablesHold s → TablesReady s →
    (∃ t, exec (.matl rd rs) s = .next t ∧ exec (.l rd rs) s = .next t ∧ t.block rd = transL gfMul (s.block rs) ∧
      OnlyBlockChanged rd s t) ∧
    (∃ t, exec (.matli rd rs) s = .next t ∧ exec (.ldinv rd rs) s = .next t ∧ exec (.linv rd rs) s = .next t ∧
      t.block rd = transLInv gfMul (s.block rs) ∧ OnlyBlockChanged rd s t)

/-- R125, R131, R132: `GETL` and `GETLI` read the listed entries. -/
def Obligations.MatrixReadbacksGiveTheListedEntries : Prop :=
  ∀ (k i : Pos) (s : State), TablesHold s → TablesReady s →
    (∃ t, exec (.getl k i) s = .next t ∧ t.gr = listedLmat[k][i] ∧ OnlyGrChanged s t) ∧
    (∃ t, exec (.getli k i) s = .next t ∧ t.gr = listedLinv[k][i] ∧ OnlyGrChanged s t)

/-! ### Fused tables -/

/-- R127, R133 to R135: the generator's "fundamental correctness invariant", as the three read-backs show it. -/
def Obligations.FusedReadbacksGiveDiffusedUnits : Prop :=
  ∀ (i k : Pos) (v : Byte) (s : State), TablesHold s → TablesReady s →
    (∃ t, exec (.gette i v k) s = .next t ∧ t.gr = (transL gfMul (unitBlock i (sbox v)))[k] ∧ OnlyGrChanged s t) ∧
    (∃ t, exec (.gettd i v k) s = .next t ∧ t.gr = (transLInv gfMul (unitBlock i (sboxInv v)))[k] ∧
      OnlyGrChanged s t) ∧
    (∃ t, exec (.getti i v k) s = .next t ∧ t.gr = (transLInv gfMul (unitBlock i v))[k] ∧ OnlyGrChanged s t)

/-- R141 to R143: the fused commands XOR sixteen entries of the table they name, whatever it holds. -/
def Obligations.FusedCommandsSumTableEntries : Prop :=
  ∀ (rd rs : Reg) (s : State), TablesReady s →
    (∃ t, exec (.lsenc rd rs) s = .next t ∧
      (∀ k : Pos, (t.block rd)[k] = xorSum fun i => fusedByte s.tables.tEnc i (s.block rs)[i] k) ∧
      OnlyBlockChanged rd s t) ∧
    (∃ t, exec (.lsdec rd rs) s = .next t ∧
      (∀ k : Pos, (t.block rd)[k] = xorSum fun i => fusedByte s.tables.tDec i (s.block rs)[i] k) ∧
      OnlyBlockChanged rd s t) ∧
    (∃ t, exec (.ldinv rd rs) s = .next t ∧
      (∀ k : Pos, (t.block rd)[k] = xorSum fun i => fusedByte s.tables.tDinv i (s.block rs)[i] k) ∧
      OnlyBlockChanged rd s t)

/-- R140: `ApplyLS` byte by byte, and its three identities. -/
def Obligations.FusedPassEqualsTheDirectPath : Prop :=
  (∀ (T : FusedTable) (x : Block) (k : Pos), (applyLS T x)[k] = xorSum fun i => fusedByte T i x[i] k) ∧
  ∀ x, applyLS generateTables.tEnc x = transL gfMul (transS x) ∧
    applyLS generateTables.tDec x = transLInv gfMul (transSInv x) ∧
    applyLS generateTables.tDinv x = transLInv gfMul x

/-- R141, R142: `LSENC` is `S` then `L`, and `LSDEC` is `SINV` then `LINV`: the two command pairs and the fused commands
leave the same state. -/
def Obligations.FusedCommandsEqualTheirCommandPairs : Prop :=
  ∀ (rd rs : Reg) (s : State), TablesHold s → TablesReady s →
    (∃ t u, exec (.s rd rs) s = .next t ∧ exec (.l rd rd) t = .next u ∧ exec (.lsenc rd rs) s = .next u) ∧
    (∃ t u, exec (.sinv rd rs) s = .next t ∧ exec (.linv rd rd) t = .next u ∧ exec (.lsdec rd rs) s = .next u)

/-! ### Lifecycle, key schedule and rounds -/

/-- R120, R121, R128: `INIT` generates the tables, sets `TREADY` and changes nothing else. -/
def Obligations.InitGeneratesTheTables : Prop :=
  ∀ s : State, s.faulted = false →
    ∃ t, exec .init s = .next t ∧ t = { s with tables := generateTables, status := s.status ||| 0x01 } ∧
      t.tready = true ∧ t.kvalid = s.kvalid ∧ t.faulted = false

/-- R152, R154: `SETKEY` replaces all ten round keys, generates the tables if they were not ready, sets `TREADY` and
`KVALID`, and keeps the block registers and `GR`. -/
def Obligations.SetkeyExpandsTheKey : Prop :=
  ∀ (ra rb : Reg) (s : State), TablesHold s → s.faulted = false →
    ∃ t, exec (.setkey ra rb) s = .next t ∧
      t = { s with
        tables := generateTables
        rk := keySchedule (s.block ra) (s.block rb)
        status := s.status ||| 0x03 } ∧
      t.tready = true ∧ t.kvalid = true ∧ t.faulted = false ∧ t.rk[0] = s.block ra ∧ t.rk[1] = s.block rb

/-- R152: `SETKEY` runs the 32 Feistel steps, written out: `p n` is the pair after n steps, it carries over from one outer
round to the next, the constants C(1) to C(32) are used in order, and after 8g steps the pair is `RK[2g+1]`, `RK[2g+2]`
(g = 0 is the two halves of the key). -/
def Obligations.SetkeyRunsThe32FeistelSteps : Prop :=
  ∀ (ra rb : Reg) (s : State), s.faulted = false →
    ∃ (t : State) (p : Nat → Block × Block), exec (.setkey ra rb) s = .next t ∧ p 0 = (s.block ra, s.block rb) ∧
      (∀ n, n < 32 → p (n + 1) =
        (xorBlock (transL gfMul (transS (xorBlock (p n).1 (transL gfMul (blockOfInt (n + 1)))))) (p n).2, (p n).1)) ∧
      ∀ g, g ≤ 4 → t.rk[2 * g]? = some (p (8 * g)).1 ∧ t.rk[2 * g + 1]? = some (p (8 * g)).2

/-- R150, R155: `RCON` writes the round constant, whose byte 15 is the index itself. -/
def Obligations.RconWritesTheRoundConstant : Prop :=
  ∀ (rd : Reg) (imm8 : Byte) (s : State), 1 ≤ imm8.toNat → imm8.toNat ≤ 32 → TablesHold s → TablesReady s →
    ∃ t, exec (.rcon rd imm8) s = .next t ∧ t.block rd = transL gfMul (blockOfInt imm8.toNat) ∧
      (t.block rd)[15] = imm8 ∧ OnlyBlockChanged rd s t

/-- R151, R156: `FSTEP`: all three registers are read before either is written, so the constant's register may be one of
the pair. -/
def Obligations.FstepRunsOneFeistelStep : Prop :=
  ∀ (ra rb rk : Reg) (s : State), ra ≠ rb → TablesHold s → TablesReady s →
    ∃ t, exec (.fstep ra rb rk) s = .next t ∧
      t.block ra = xorBlock (transL gfMul (transS (xorBlock (s.block ra) (s.block rk)))) (s.block rb) ∧
      t.block rb = s.block ra ∧
      (∀ r, r ≠ ra → r ≠ rb → t.block r = s.block r) ∧
      t.gr = s.gr ∧ t.status = s.status ∧ t.cause = s.cause ∧ t.finfo = s.finfo ∧ t.rk = s.rk ∧ t.tables = s.tables ∧
      t.inputs = s.inputs

/-- R151: the Feistel step as a function, direct or fused, and how it is undone. -/
def Obligations.FeistelStepIsInvertible : Prop :=
  ∀ k a b : Block,
    feistel (directLS gfMul) k a b = (xorBlock (transL gfMul (transS (xorBlock a k))) b, a) ∧
    feistel (applyLS generateTables.tEnc) k a b = feistel (directLS gfMul) k a b ∧
    ∀ a' b', feistel (directLS gfMul) k a b = (a', b') →
      a = b' ∧ b = xorBlock a' (transL gfMul (transS (xorBlock b' k)))

/-- R17, R157: `GETRK` copies round key `idx`, for idx in 1..10. -/
def Obligations.GetrkCopiesARoundKey : Prop :=
  ∀ (rd : Reg) (idx : Pos) (s : State), 1 ≤ idx.val → idx.val ≤ 10 → Keyed s →
    ∃ t, exec (.getrk rd idx) s = .next t ∧ s.rk[idx.val - 1]? = some (t.block rd) ∧ OnlyBlockChanged rd s t

/-- R160, R161: `ENC`: ten key additions and, between them, nine applications of `L(S(.))`, written out. -/
def Obligations.EncRunsTheTenRounds : Prop :=
  ∀ (rd : Reg) (s : State), TablesHold s → Keyed s →
    ∃ (t : State) (x : Nat → Block), exec (.enc rd) s = .next t ∧ x 0 = s.block rd ∧
      (∀ (n : Nat) (h : n < 9), x (n + 1) = transL gfMul (transS (xorBlock (x n) (s.rk[n]'(Nat.lt_of_lt_of_le h (by decide)))))) ∧
      t.block rd = xorBlock (x 9) s.rk[9] ∧ OnlyBlockChanged rd s t

/-- R162, R163: `DEC` gives the block that `Encrypt` takes to its operand, under the keys in `RK`. -/
def Obligations.DecGivesTheBlockThatEncryptsToItsOperand : Prop :=
  ∀ (rd : Reg) (s : State), TablesHold s → Keyed s →
    ∃ t, exec (.dec rd) s = .next t ∧ encrypt (directLS gfMul) s.rk (t.block rd) = s.block rd ∧ OnlyBlockChanged rd s t

/-- R165(a) on the machine: `DEC` after `ENC` on one register restores the whole state, and so does `ENC` after `DEC`. -/
def Obligations.DecUndoesEncAndEncUndoesDec : Prop :=
  ∀ (rd : Reg) (s : State), TablesHold s → Keyed s →
    (∃ t, exec (.enc rd) s = .next t ∧ exec (.dec rd) t = .next s) ∧
    (∃ t, exec (.dec rd) s = .next t ∧ exec (.enc rd) t = .next s)

/-- R165: for all round keys the pair are inverse permutations of the blocks, and the fused path of `Encrypt` is the
direct one. -/
def Obligations.EncryptAndDecryptAreInversePermutations : Prop :=
  ∀ rk : Vector Block Config.nrk,
    (∀ x, decrypt gfMul rk (encrypt (directLS gfMul) rk x) = x) ∧
    (∀ y, encrypt (directLS gfMul) rk (decrypt gfMul rk y) = y) ∧
    Function.Bijective (encrypt (directLS gfMul) rk) ∧
    ∀ x, encrypt (applyLS generateTables.tEnc) rk x = encrypt (directLS gfMul) rk x

/-- R164: the fused arrangement of decryption, with the keys passed through L_inv, is the decryption of R162. -/
def Obligations.FusedDecryptionEqualsDecryption : Prop :=
  ∀ (rk : Vector Block Config.nrk) (y : Block), decryptFused generateTables rk y = decrypt gfMul rk y

/-! ### The host's text and the assembler -/

/-- R76: the round trips of the text form. -/
def Obligations.HexTextRoundTrips : Prop :=
  (∀ (s : List Char) (x : Block), parseHex s = .ok x → formatHex x = s) ∧ (∀ x : Block, parseHex (formatHex x) = .ok x)

/-- R75: `ParseHex` succeeds exactly on 32 lower-case hex digits; otherwise it answers the error and no block. -/
def Obligations.ParseHexAcceptsExactlyTheTextForm : Prop :=
  ∀ s : List Char,
    ((∃ x, parseHex s = .ok x) ↔ s.length = 32 ∧ ∀ c ∈ s, c ∈ "0123456789abcdef".toList) ∧
    (¬ (s.length = 32 ∧ ∀ c ∈ s, c ∈ "0123456789abcdef".toList) → parseHex s = .error .invalidFormat)

/-- R62: what the expansions of `CLR` and `MOV` leave. -/
def Obligations.PseudoInstructionsClearAndMove : Prop :=
  ∀ (rd rs : Reg) (s : State), s.faulted = false →
    (expandPseudo (.clr rd) = some [.xor rd rd] ∧
      ∃ t, exec (.xor rd rd) s = .next t ∧ t.block rd = zeroBlock ∧ OnlyBlockChanged rd s t) ∧
    (rd ≠ rs → expandPseudo (.mov rd rs) = some [.xor rd rd, .xor rd rs] ∧
      ∃ t u, exec (.xor rd rd) s = .next t ∧ exec (.xor rd rs) t = .next u ∧ u.block rd = s.block rs ∧
        OnlyBlockChanged rd s u) ∧
    expandPseudo (.mov rd rd) = none
end

