-- ==== Sys2Proof/Laws/Blocks.lean ====
section
/-! SUPPORT. The element laws of the block datapath and of the transforms, and the algebra of `xorBlock` and `XORSUM`
(spec/40_block.md R70). -/

namespace Sys2Proof.Machine

/-- Two blocks that agree in every byte are equal. -/
theorem block_ext {x y : Block} (h : ∀ i : Pos, x[i] = y[i]) : x = y := by
  apply Vector.ext
  intro i hi
  exact h ⟨i, hi⟩

@[simp] theorem zeroBlock_getElem (i : Nat) (h : i < 16) : zeroBlock[i] = 0 := by simp [zeroBlock]

@[simp] theorem xorBlock_getElem (a b : Block) (i : Nat) (h : i < 16) : (xorBlock a b)[i] = a[i] ^^^ b[i] := by
  simp [xorBlock]

@[simp] theorem transS_getElem (x : Block) (i : Nat) (h : i < 16) : (transS x)[i] = sbox x[i] := by simp [transS]

@[simp] theorem transSInv_getElem (x : Block) (i : Nat) (h : i < 16) : (transSInv x)[i] = sboxInv x[i] := by
  simp [transSInv]

@[simp] theorem unitBlock_getElem (p : Pos) (c : Byte) (i : Nat) (h : i < 16) :
    (unitBlock p c)[i] = if i = p.val then c else 0 := by
  simp [unitBlock, Fin.ext_iff]

@[simp] theorem matVec_getElem (mul : Byte → Byte → Byte) (A : Matrix) (x : Block) (r : Nat) (h : r < 16) :
    (matVec mul A x)[r] = xorSum fun c => mul A[r][c] x[c] := by
  simp [matVec]

@[simp] theorem stepR_zero (mul : Byte → Byte → Byte) (x : Block) : (stepR mul x)[0] = ell mul x := by simp [stepR]

@[simp] theorem stepR_succ (mul : Byte → Byte → Byte) (x : Block) (i : Nat) (h : i + 1 < 16) :
    (stepR mul x)[i + 1] = x[i] := by
  simp [stepR]

@[simp] theorem xorBlock_zero (a : Block) : xorBlock a zeroBlock = a := by
  apply Vector.ext; intro i h; simp

@[simp] theorem zero_xorBlock (a : Block) : xorBlock zeroBlock a = a := by
  apply Vector.ext; intro i h; simp

@[simp] theorem xorBlock_self (a : Block) : xorBlock a a = zeroBlock := by
  apply Vector.ext; intro i h; simp

theorem xorBlock_comm (a b : Block) : xorBlock a b = xorBlock b a := by
  apply Vector.ext; intro i h; simp [BitVec.xor_comm]

theorem xorBlock_assoc (a b c : Block) : xorBlock (xorBlock a b) c = xorBlock a (xorBlock b c) := by
  apply Vector.ext; intro i h; simp [BitVec.xor_assoc]

/-- Adding a block twice gives it back. -/
@[simp] theorem xorBlock_cancel_right (a b : Block) : xorBlock (xorBlock a b) b = a := by
  rw [xorBlock_assoc, xorBlock_self, xorBlock_zero]

/-! ### `XORSUM` -/

/-- The sum over a list of positions, the form in which its laws go by induction. -/
theorem foldr_xor (l : List Pos) (f g : Pos → Byte) :
    l.foldr (fun i acc => (f i ^^^ g i) ^^^ acc) 0 =
      l.foldr (fun i acc => f i ^^^ acc) 0 ^^^ l.foldr (fun i acc => g i ^^^ acc) 0 := by
  induction l with
  | nil => simp
  | cons i l ih => simp only [List.foldr_cons, ih]; ac_rfl

/-- `XORSUM` of a sum is the sum of the `XORSUM`s. -/
theorem xorSum_xor (f g : Pos → Byte) : xorSum (fun i => f i ^^^ g i) = xorSum f ^^^ xorSum g :=
  foldr_xor (List.finRange 16) f g

/-- `XORSUM` of zeros. -/
theorem xorSum_eq_zero {f : Pos → Byte} (h : ∀ i, f i = 0) : xorSum f = 0 := by
  unfold xorSum
  induction List.finRange 16 with
  | nil => rfl
  | cons i l ih => rw [List.foldr_cons, h i, ih]; rfl

/-- `XORSUM` written out. -/
theorem xorSum_expand (f : Pos → Byte) :
    xorSum f = f 0 ^^^ (f 1 ^^^ (f 2 ^^^ (f 3 ^^^ (f 4 ^^^ (f 5 ^^^ (f 6 ^^^ (f 7 ^^^ (f 8 ^^^ (f 9 ^^^ (f 10 ^^^ (f 11 ^^^
      (f 12 ^^^ (f 13 ^^^ (f 14 ^^^ (f 15 ^^^ 0))))))))))))))) := rfl

/-- The accumulation of blocks, byte by byte. -/
theorem foldl_xorBlock_getElem (l : List Pos) (e : Pos → Block) (acc : Block) (k : Nat) (h : k < 16) :
    (l.foldl (fun a i => xorBlock a (e i)) acc)[k] = acc[k] ^^^ l.foldr (fun i b => (e i)[k] ^^^ b) 0 := by
  induction l generalizing acc with
  | nil => simp
  | cons i l ih => simp only [List.foldl_cons, List.foldr_cons, ih, xorBlock_getElem]; ac_rfl

/-- R140: "Byte by byte". -/
theorem xorSumBlock_getElem (e : Pos → Block) (k : Nat) (h : k < 16) :
    (xorSumBlock e)[k] = xorSum fun i => (e i)[k] := by
  unfold xorSumBlock xorSum
  rw [foldl_xorBlock_getElem]
  simp

/-! ### Generated tables -/

/-- R126: an entry of a generated fused table. -/
theorem fusedRead_fuse (f : Byte → Byte) (A : Matrix) (i : Pos) (v : Byte) (k : Nat) (h : k < 16) :
    (fusedRead (fuse f A) i v)[k] = gfMul (f v) A[k][i] := by
  simp [fusedRead, fuse]

/-- R140: a fused pass over a generated table, byte by byte. -/
theorem applyLS_fuse (f : Byte → Byte) (A : Matrix) (x : Block) :
    applyLS (fuse f A) x = Vector.ofFn fun k : Pos => xorSum fun i => gfMul (f x[i]) A[k][i] := by
  apply block_ext
  intro k
  simp [applyLS, xorSumBlock_getElem, fusedRead_fuse]

/-- R19, R84: a read of the generated multiplication table. -/
@[simp] theorem mulRead_generateTables (a b : Byte) : mulRead generateTables a b = gfMul a b := by
  simp [mulRead, generateTables, generateMul]

@[simp] theorem mulRead_generateTables_eq : mulRead generateTables = gfMul := by
  funext a b; simp

end Sys2Proof.Machine
end

