-- ==== Sys2Proof/Laws/Decode.lean ====
section
/-! SUPPORT. The field layout of a word (spec/30_encoding.md R51): splitting a word into its fields and joining them are
inverse to each other, a mask acts field by field, and the operand fields lose nothing. -/

namespace Sys2Proof

/-- Two sets of fields that agree are equal. -/
theorem fields_ext {f g : Fields} (h1 : f.op = g.op) (h2 : f.rd = g.rd) (h3 : f.rs = g.rs) (h4 : f.rt = g.rt)
    (h5 : f.idx = g.idx) (h6 : f.imm8 = g.imm8) : f = g := by
  cases f; cases g; simp_all

/-- R51: the fields of a joined word are the fields joined. -/
@[simp] theorem fieldsOf_wordOf (f : Fields) : fieldsOf (wordOf f) = f := by
  apply fields_ext <;> (simp only [fieldsOf, wordOf]; apply BitVec.eq_of_getLsbD_eq; intro i hi)
  · simp only [BitVec.getLsbD_extractLsb', BitVec.getLsbD_append]
    simp [hi, show ¬ 24 + i < 24 by omega]
  · simp only [BitVec.getLsbD_extractLsb', BitVec.getLsbD_append]
    simp [hi, show 20 + i < 24 by omega, show ¬ 20 + i < 20 by omega]
  · simp only [BitVec.getLsbD_extractLsb', BitVec.getLsbD_append]
    simp [hi, show 16 + i < 24 by omega, show 16 + i < 20 by omega, show ¬ 16 + i < 16 by omega]
  · simp only [BitVec.getLsbD_extractLsb', BitVec.getLsbD_append]
    simp [hi, show 12 + i < 24 by omega, show 12 + i < 20 by omega, show 12 + i < 16 by omega,
      show ¬ 12 + i < 12 by omega]
  · simp only [BitVec.getLsbD_extractLsb', BitVec.getLsbD_append]
    simp [hi, show 8 + i < 24 by omega, show 8 + i < 20 by omega, show 8 + i < 16 by omega,
      show 8 + i < 12 by omega, show ¬ 8 + i < 8 by omega]
  · simp only [BitVec.getLsbD_extractLsb', BitVec.getLsbD_append]
    simp [hi, show i < 24 by omega, show i < 20 by omega, show i < 16 by omega, show i < 12 by omega]

/-- R51: the fields of a word join to the word. -/
@[simp] theorem wordOf_fieldsOf (w : Word) : wordOf (fieldsOf w) = w := by
  simp only [fieldsOf, wordOf]
  apply BitVec.eq_of_getLsbD_eq
  intro i hi
  simp only [BitVec.getLsbD_append, BitVec.getLsbD_extractLsb']
  by_cases h1 : i < 8
  · simp [h1, show i < 24 by omega, show i < 20 by omega, show i < 16 by omega, show i < 12 by omega]
  by_cases h2 : i < 12
  · simp [h1, h2, show i < 24 by omega, show i < 20 by omega, show i < 16 by omega, show i - 8 < 4 by omega,
      show 8 + (i - 8) = i by omega]
  by_cases h3 : i < 16
  · simp [h2, h3, show i < 24 by omega, show i < 20 by omega, show i - 12 < 4 by omega, show 12 + (i - 12) = i by omega]
  by_cases h4 : i < 20
  · simp [h3, h4, show i < 24 by omega, show i - 16 < 4 by omega, show 16 + (i - 16) = i by omega]
  by_cases h5 : i < 24
  · simp [h4, h5, show i - 20 < 4 by omega, show 20 + (i - 20) = i by omega]
  · simp [h5, show i - 24 < 8 by omega, show 24 + (i - 24) = i by omega]

/-- Words are equal when their fields are. -/
theorem wordOf_inj {f g : Fields} : wordOf f = wordOf g ↔ f = g := by
  constructor
  · intro h
    have := congrArg fieldsOf h
    simpa using this
  · rintro rfl; rfl

/-- R54: a mask acts field by field. -/
theorem fieldsOf_and (v w : Word) :
    fieldsOf (v &&& w) =
      ⟨(fieldsOf v).op &&& (fieldsOf w).op, (fieldsOf v).rd &&& (fieldsOf w).rd, (fieldsOf v).rs &&& (fieldsOf w).rs,
        (fieldsOf v).rt &&& (fieldsOf w).rt, (fieldsOf v).idx &&& (fieldsOf w).idx,
        (fieldsOf v).imm8 &&& (fieldsOf w).imm8⟩ := by
  simp [fieldsOf, BitVec.extractLsb'_and]

/-- Words are equal exactly when their fields are. -/
theorem fieldsOf_inj {v w : Word} : fieldsOf v = fieldsOf w ↔ v = w := by
  constructor
  · intro h
    rw [← wordOf_fieldsOf v, h, wordOf_fieldsOf]
  · rintro rfl; rfl

/-- R54: a mask test on a word, as a test on each field; `m` and `p` are the mask and the pattern. -/
theorem and_eq_iff (w m p : Word) :
    w &&& m = p ↔
      (fieldsOf w).op &&& (fieldsOf m).op = (fieldsOf p).op ∧ (fieldsOf w).rd &&& (fieldsOf m).rd = (fieldsOf p).rd ∧
      (fieldsOf w).rs &&& (fieldsOf m).rs = (fieldsOf p).rs ∧ (fieldsOf w).rt &&& (fieldsOf m).rt = (fieldsOf p).rt ∧
      (fieldsOf w).idx &&& (fieldsOf m).idx = (fieldsOf p).idx ∧
      (fieldsOf w).imm8 &&& (fieldsOf m).imm8 = (fieldsOf p).imm8 := by
  rw [← fieldsOf_inj, fieldsOf_and]
  constructor
  · intro h
    rw [← h]
    exact ⟨rfl, rfl, rfl, rfl, rfl, rfl⟩
  · rintro ⟨h1, h2, h3, h4, h5, h6⟩
    exact fields_ext h1 h2 h3 h4 h5 h6

/-! ### Operand fields -/

@[simp] theorem regOf_regField (r : Reg) : regOf (regField r) = r := by revert r; decide

@[simp] theorem regField_and (r : Reg) : regField r &&& 12#4 = 0#4 := by revert r; decide

/-- R56: the register field of a word that passes the mask holds 0..3 and loses nothing. -/
theorem regField_regOf {f : BitVec 4} (h : f &&& 12#4 = 0#4) : regField (regOf f) = f := by
  revert f; decide

@[simp] theorem posOf_posField (p : Pos) : posOf (posField p) = p := by revert p; decide

@[simp] theorem posField_posOf (f : BitVec 4) : posField (posOf f) = f := by revert f; decide

@[simp] theorem byteOf_halves (b : Byte) : byteOf (highHalf b) (lowHalf b) = b := by revert b; decide +kernel

@[simp] theorem highHalf_byteOf (h l : BitVec 4) : highHalf (byteOf h l) = h := by revert h l; decide +kernel

@[simp] theorem lowHalf_byteOf (h l : BitVec 4) : lowHalf (byteOf h l) = l := by revert h l; decide +kernel

/-! ### The encoder -/

@[simp] theorem fieldsOf_encode (i : Instr) : fieldsOf (encode i) = fieldsOfInstr i := by simp [encode]

end Sys2Proof
end

