-- ==== Sys2Proof/Laws/Eval.lean ====
section
/-! SUPPORT. An evaluation order for Lean's kernel. The kernel evaluates a term when something looks at it, and a chain of
steps on blocks then evaluates its early steps many times over. The functions here look at each byte before the next step
starts and keep a block as a list, and are proved equal to the plain ones. -/

namespace Sys2Proof.Machine

/-! ### Handing values on as numerals -/

/-- Hand a number on as a numeral. -/
def forceNat {α : Type} (n : Nat) (f : Nat → α) : α :=
  match n with
  | 0 => f 0
  | m + 1 => f (m + 1)

@[simp] theorem forceNat_eq {α : Type} (n : Nat) (f : Nat → α) : forceNat n f = f n := by cases n <;> rfl

/-- Hand the bytes of a list on as numerals. -/
def forceBytes {α : Type} : List Byte → (List Byte → α) → α
  | [], f => f []
  | b :: bs, f => forceNat b.toNat fun n => forceBytes bs fun cs => f (BitVec.ofNat 8 n :: cs)

@[simp] theorem forceBytes_eq {α : Type} (l : List Byte) (f : List Byte → α) : forceBytes l f = f l := by
  induction l generalizing f with
  | nil => rfl
  | cons b bs ih => simp [forceBytes, ih]

/-- The block of a list of sixteen bytes. -/
def blockOfBytes (l : List Byte) : Block := if h : l.toArray.size = 16 then ⟨l.toArray, h⟩ else zeroBlock

@[simp] theorem blockOfBytes_toList (x : Block) : blockOfBytes x.toList = x := by
  cases x; simp [blockOfBytes, Vector.toList, *]

/-- Hand a block on as sixteen numerals. -/
def forceBlock {α : Type} (x : Block) (f : Block → α) : α := forceBytes x.toList fun l => f (blockOfBytes l)

@[simp] theorem forceBlock_eq {α : Type} (x : Block) (f : Block → α) : forceBlock x f = f x := by
  simp [forceBlock]

/-- A right fold over blocks, the inner block first. -/
def foldrForced {β : Type} (f : β → Block → Block) (x : Block) : List β → Block
  | [] => x
  | b :: bs => forceBlock (foldrForced f x bs) (f b)

theorem foldr_eq_forced {β : Type} (f : β → Block → Block) (x : Block) (l : List β) :
    l.foldr f x = foldrForced f x l := by
  induction l with
  | nil => rfl
  | cons b bs ih => simp [foldrForced, ih]

/-- A left fold over pairs of blocks, each pair before the next step. -/
def foldlForced {β : Type} (f : Block × Block → β → Block × Block) (p : Block × Block) : List β → Block × Block
  | [] => p
  | b :: bs => forceBlock p.1 fun x => forceBlock p.2 fun y => foldlForced f (f (x, y) b) bs

theorem foldl_eq_forced {β : Type} (f : Block × Block → β → Block × Block) (p : Block × Block) (l : List β) :
    l.foldl f p = foldlForced f p l := by
  induction l generalizing p with
  | nil => rfl
  | cons b bs ih => simp [foldlForced, ih]

/-! ### R and R_inv, on lists -/

/-- R100: `TV`. -/
def tvBytes : List Byte :=
  [0x94, 0x20, 0x85, 0x10, 0xc2, 0xc0, 0x01, 0xfb, 0x01, 0xc0, 0xc2, 0x10, 0x85, 0x20, 0x94, 0x01]

theorem tv_toList : tv.toList = tvBytes := by decide +kernel

/-- The XOR of the products of two lists. -/
def listProduct : List Byte → List Byte → Byte
  | a :: as, b :: bs => gfMul a b ^^^ listProduct as bs
  | _, _ => 0

theorem xorSum_eq_listProduct (y x : Block) :
    (xorSum fun i : Pos => gfMul y[i] x[i]) = listProduct y.toList x.toList := by
  rcases y with ⟨⟨k⟩, hk⟩
  rcases x with ⟨⟨l⟩, hl⟩
  match k, hk, l, hl with
  | [c0, c1, c2, c3, c4, c5, c6, c7, c8, c9, c10, c11, c12, c13, c14, c15], _,
    [a0, a1, a2, a3, a4, a5, a6, a7, a8, a9, a10, a11, a12, a13, a14, a15], _ =>
    simp [xorSum_expand, listProduct, Vector.toList]

/-- R101. -/
theorem ell_eq_listProduct (x : Block) : ell gfMul x = listProduct tvBytes x.toList := by
  rw [← tv_toList, ← xorSum_eq_listProduct, ell]

/-- R102. -/
def listR (l : List Byte) : List Byte := listProduct tvBytes l :: l.dropLast

/-- R103. -/
def listRInv : List Byte → List Byte
  | [] => []
  | a :: l => l ++ [listProduct tvBytes (l ++ [a])]

theorem toList_stepR (x : Block) : (stepR gfMul x).toList = listR x.toList := by
  rw [listR, ← ell_eq_listProduct]
  rcases x with ⟨⟨l⟩, h⟩
  match l, h with
  | [a0, a1, a2, a3, a4, a5, a6, a7, a8, a9, a10, a11, a12, a13, a14, a15], _ =>
    simp [stepR, Vector.toList, Vector.ofFn, List.ofFn_succ]

theorem toList_rotateDown (x : Block) (a : Byte) (l : List Byte) (h : x.toList = a :: l) :
    (rotateDown x).toList = l ++ [a] := by
  rcases x with ⟨⟨m⟩, hm⟩
  match m, hm with
  | [a0, a1, a2, a3, a4, a5, a6, a7, a8, a9, a10, a11, a12, a13, a14, a15], _ =>
    simp [Vector.toList] at h
    obtain ⟨rfl, rfl⟩ := h
    simp [rotateDown, Vector.toList, Vector.ofFn, List.ofFn_succ]

theorem toList_stepRInv (x : Block) : (stepRInv gfMul x).toList = listRInv x.toList := by
  rcases hx : x.toList with _ | ⟨a, l⟩
  · have := congrArg List.length hx; simp at this
  · have hr := toList_rotateDown x a l hx
    have hl : l.length = 15 := by have := congrArg List.length hx; simp at this; omega
    simp [stepRInv, ell_eq_listProduct, listRInv, hr, Vector.toList_set, List.set_append_right, hl]

/-- The fixed-count loop on lists, each list before the next step. -/
def iterateBytes (f : List Byte → List Byte) : Nat → List Byte → List Byte
  | 0, l => l
  | n + 1, l => forceBytes (f l) (iterateBytes f n)

theorem toList_iterate {f : Block → Block} {g : List Byte → List Byte} (h : ∀ x, (f x).toList = g x.toList) (n : Nat)
    (x : Block) : (iterate f n x).toList = iterateBytes g n x.toList := by
  induction n generalizing x with
  | zero => rfl
  | succ n ih => simp [iterate, iterateBytes, ih, h]

/-- R104: L. -/
theorem transL_eq_bytes (x : Block) : transL gfMul x = blockOfBytes (iterateBytes listR 16 x.toList) := by
  rw [← toList_iterate toList_stepR, blockOfBytes_toList]; rfl

/-- R104: L_inv. -/
theorem transLInv_eq_bytes (x : Block) : transLInv gfMul x = blockOfBytes (iterateBytes listRInv 16 x.toList) := by
  rw [← toList_iterate toList_stepRInv, blockOfBytes_toList]; rfl

end Sys2Proof.Machine
end

