-- ==== Sys2Proof/Laws/Gf.lean ====
section
/-! SUPPORT. The linearity of the field multiplication in each argument (spec/41_gf256.md R82) and of the feedback and the
two steps built on it (spec/43_diffusion.md R101 to R103). -/

namespace Sys2Proof.Machine

/-- Adding a byte to both sides of a sum drops out. -/
theorem xor_xor_xor_cancel (x y z : Byte) : (x ^^^ z) ^^^ (y ^^^ z) = x ^^^ y := by
  have h : x ^^^ z ^^^ (y ^^^ z) = x ^^^ y ^^^ (z ^^^ z) := by ac_rfl
  simpa using h

/-- Doubling distributes over XOR. -/
theorem gfDouble_xor (a b : Byte) : gfDouble (a ^^^ b) = gfDouble a ^^^ gfDouble b := by
  unfold gfDouble
  rw [BitVec.getLsbD_xor, BitVec.shiftLeft_xor_distrib]
  cases a.getLsbD 7 <;> cases b.getLsbD 7 <;>
    simp only [Bool.xor_false, Bool.xor_true, Bool.not_true, Bool.not_false, if_true, Bool.false_eq_true, if_false]
  · ac_rfl
  · ac_rfl
  · exact (xor_xor_xor_cancel _ _ _).symm

/-- The accumulator of the loop is only ever added to. -/
theorem gfMulLoop_acc (n : Nat) (a b c d : Byte) : gfMulLoop n a b (c ^^^ d) = gfMulLoop n a b c ^^^ d := by
  induction n generalizing a b c with
  | zero => rfl
  | succ n ih =>
    unfold gfMulLoop
    cases b.getLsbD 0
    · exact ih _ _ c
    · have h : c ^^^ d ^^^ a = c ^^^ a ^^^ d := by ac_rfl
      simp only [if_true, h, ih]

/-- The same from a zero accumulator. -/
theorem gfMulLoop_zero_acc (n : Nat) (a b d : Byte) : gfMulLoop n a b d = gfMulLoop n a b 0 ^^^ d := by
  simpa using gfMulLoop_acc n a b 0 d

/-- One turn of the loop from a zero accumulator. -/
theorem gfMulLoop_succ (n : Nat) (a b : Byte) :
    gfMulLoop (n + 1) a b 0 = gfMulLoop n (gfDouble a) (b >>> 1) 0 ^^^ (if b.getLsbD 0 then a else 0) := by
  rw [← gfMulLoop_zero_acc]
  simp [gfMulLoop]

/-- The loop is additive in the multiplicand. -/
theorem gfMulLoop_left (n : Nat) (a a' b : Byte) :
    gfMulLoop n (a ^^^ a') b 0 = gfMulLoop n a b 0 ^^^ gfMulLoop n a' b 0 := by
  induction n generalizing a a' b with
  | zero => simp [gfMulLoop]
  | succ n ih =>
    simp only [gfMulLoop_succ, gfDouble_xor, ih]
    cases b.getLsbD 0
    · simp
    · simp only [if_true]; ac_rfl

/-- The loop is additive in the multiplier. -/
theorem gfMulLoop_right (n : Nat) (a b b' : Byte) :
    gfMulLoop n a (b ^^^ b') 0 = gfMulLoop n a b 0 ^^^ gfMulLoop n a b' 0 := by
  induction n generalizing a b b' with
  | zero => simp [gfMulLoop]
  | succ n ih =>
    simp only [gfMulLoop_succ, BitVec.ushiftRight_xor_distrib, BitVec.getLsbD_xor, ih]
    cases b.getLsbD 0 <;> cases b'.getLsbD 0 <;>
      simp only [Bool.xor_false, Bool.xor_true, Bool.not_true, Bool.not_false, if_true, Bool.false_eq_true, if_false]
    · simp
    · simp; ac_rfl
    · simp; ac_rfl
    · rw [xor_xor_xor_cancel]; simp

/-- `gf_mul` distributes over XOR on the left. -/
theorem gfMul_xor_left (a a' b : Byte) : gfMul (a ^^^ a') b = gfMul a b ^^^ gfMul a' b := gfMulLoop_left 8 a a' b

/-- `gf_mul` distributes over XOR on the right. -/
theorem gfMul_xor_right (a b b' : Byte) : gfMul a (b ^^^ b') = gfMul a b ^^^ gfMul a b' := gfMulLoop_right 8 a b b'

/-- `TV[15]` = 1 makes the last product of the feedback the byte itself. -/
theorem gfMul_one_left (a : Byte) : gfMul 1 a = a := by
  revert a; decide +kernel

/-- R105(b) for the feedback. -/
theorem ell_xor (x y : Block) : ell gfMul (xorBlock x y) = ell gfMul x ^^^ ell gfMul y := by
  unfold ell
  rw [← xorSum_xor]
  congr 1; funext i
  simp [gfMul_xor_right]

end Sys2Proof.Machine
end

