-- ==== Sys2Proof/Laws/State.lean ====
section
/-! SUPPORT. One lemma per field of State per update, so that no later proof unfolds a record update. -/

namespace Sys2Proof.Machine

/-! ### Writing a block register -/

@[simp] theorem setBlock_gr (s : State) (r : Reg) (v : Block) : (s.setBlock r v).gr = s.gr := rfl
@[simp] theorem setBlock_status (s : State) (r : Reg) (v : Block) : (s.setBlock r v).status = s.status := rfl
@[simp] theorem setBlock_cause (s : State) (r : Reg) (v : Block) : (s.setBlock r v).cause = s.cause := rfl
@[simp] theorem setBlock_finfo (s : State) (r : Reg) (v : Block) : (s.setBlock r v).finfo = s.finfo := rfl
@[simp] theorem setBlock_rk (s : State) (r : Reg) (v : Block) : (s.setBlock r v).rk = s.rk := rfl
@[simp] theorem setBlock_tables (s : State) (r : Reg) (v : Block) : (s.setBlock r v).tables = s.tables := rfl
@[simp] theorem setBlock_inputs (s : State) (r : Reg) (v : Block) : (s.setBlock r v).inputs = s.inputs := rfl
@[simp] theorem setBlock_tready (s : State) (r : Reg) (v : Block) : (s.setBlock r v).tready = s.tready := rfl
@[simp] theorem setBlock_kvalid (s : State) (r : Reg) (v : Block) : (s.setBlock r v).kvalid = s.kvalid := rfl
@[simp] theorem setBlock_faulted (s : State) (r : Reg) (v : Block) : (s.setBlock r v).faulted = s.faulted := rfl

/-- A read of a block register after a write to one. -/
theorem block_setBlock (s : State) (r q : Reg) (v : Block) :
    (s.setBlock r v).block q = if r = q then v else s.block q := by
  simp [State.block, State.setBlock, Vector.getElem_set, Fin.ext_iff]

@[simp] theorem block_setBlock_same (s : State) (r : Reg) (v : Block) : (s.setBlock r v).block r = v := by
  simp [block_setBlock]

theorem block_setBlock_other (s : State) {r q : Reg} (v : Block) (h : q ≠ r) :
    (s.setBlock r v).block q = s.block q := by
  simp [block_setBlock, Ne.symm h]

/-- Writing a register with the value it holds changes nothing. -/
@[simp] theorem setBlock_block (s : State) (r : Reg) : s.setBlock r (s.block r) = s := by
  cases s; simp [State.setBlock, State.block]

/-- The second of two writes to one register is the one that counts. -/
@[simp] theorem setBlock_setBlock (s : State) (r : Reg) (v w : Block) :
    (s.setBlock r v).setBlock r w = s.setBlock r w := by
  cases s; simp [State.setBlock]

/-- Two register files that agree in every register are equal. -/
theorem blocks_ext {s t : State} (h : ∀ r, t.block r = s.block r) : t.blocks = s.blocks := by
  apply Vector.ext
  intro i hi
  exact h ⟨i, hi⟩

/-! ### Writing `GR` -/

@[simp] theorem setGr_gr (s : State) (v : Byte) : (s.setGr v).gr = v := rfl
@[simp] theorem setGr_blocks (s : State) (v : Byte) : (s.setGr v).blocks = s.blocks := rfl
@[simp] theorem setGr_block (s : State) (v : Byte) (r : Reg) : (s.setGr v).block r = s.block r := rfl
@[simp] theorem setGr_status (s : State) (v : Byte) : (s.setGr v).status = s.status := rfl
@[simp] theorem setGr_cause (s : State) (v : Byte) : (s.setGr v).cause = s.cause := rfl
@[simp] theorem setGr_finfo (s : State) (v : Byte) : (s.setGr v).finfo = s.finfo := rfl
@[simp] theorem setGr_rk (s : State) (v : Byte) : (s.setGr v).rk = s.rk := rfl
@[simp] theorem setGr_tables (s : State) (v : Byte) : (s.setGr v).tables = s.tables := rfl
@[simp] theorem setGr_inputs (s : State) (v : Byte) : (s.setGr v).inputs = s.inputs := rfl
@[simp] theorem setGr_tready (s : State) (v : Byte) : (s.setGr v).tready = s.tready := rfl
@[simp] theorem setGr_kvalid (s : State) (v : Byte) : (s.setGr v).kvalid = s.kvalid := rfl
@[simp] theorem setGr_faulted (s : State) (v : Byte) : (s.setGr v).faulted = s.faulted := rfl

/-! ### Taking a move from the host's list -/

@[simp] theorem withInputs_faulted (s : State) (ms : List HostMove) :
    State.faulted { s with inputs := ms } = s.faulted := rfl
@[simp] theorem withInputs_tready (s : State) (ms : List HostMove) :
    State.tready { s with inputs := ms } = s.tready := rfl
@[simp] theorem withInputs_kvalid (s : State) (ms : List HostMove) :
    State.kvalid { s with inputs := ms } = s.kvalid := rfl
@[simp] theorem withInputs_block (s : State) (ms : List HostMove) (r : Reg) :
    State.block { s with inputs := ms } r = s.block r := rfl

/-! ### Fault entry -/

@[simp] theorem enterFault_blocks (c : Cause) (w : Word) (s : State) : (enterFault c w s).blocks = s.blocks := rfl
@[simp] theorem enterFault_block (c : Cause) (w : Word) (s : State) (r : Reg) :
    (enterFault c w s).block r = s.block r := rfl
@[simp] theorem enterFault_gr (c : Cause) (w : Word) (s : State) : (enterFault c w s).gr = s.gr := rfl
@[simp] theorem enterFault_status (c : Cause) (w : Word) (s : State) :
    (enterFault c w s).status = setFault s.status := rfl
@[simp] theorem enterFault_cause (c : Cause) (w : Word) (s : State) : (enterFault c w s).cause = causeCode c := rfl
@[simp] theorem enterFault_finfo (c : Cause) (w : Word) (s : State) : (enterFault c w s).finfo = w := rfl
@[simp] theorem enterFault_rk (c : Cause) (w : Word) (s : State) : (enterFault c w s).rk = s.rk := rfl
@[simp] theorem enterFault_tables (c : Cause) (w : Word) (s : State) : (enterFault c w s).tables = s.tables := rfl
@[simp] theorem enterFault_inputs (c : Cause) (w : Word) (s : State) : (enterFault c w s).inputs = s.inputs := rfl

/-! ### Reset -/

@[simp] theorem applyReset_blocks (d : Draw) (s : State) : (applyReset d s).blocks = d.blocks := rfl
@[simp] theorem applyReset_gr (d : Draw) (s : State) : (applyReset d s).gr = d.gr := rfl
@[simp] theorem applyReset_status (d : Draw) (s : State) : (applyReset d s).status = 0 := rfl
@[simp] theorem applyReset_cause (d : Draw) (s : State) : (applyReset d s).cause = 0 := rfl
@[simp] theorem applyReset_finfo (d : Draw) (s : State) : (applyReset d s).finfo = 0 := rfl
@[simp] theorem applyReset_rk (d : Draw) (s : State) : (applyReset d s).rk = d.rk := rfl
@[simp] theorem applyReset_tables (d : Draw) (s : State) : (applyReset d s).tables = d.tables := rfl
@[simp] theorem applyReset_inputs (d : Draw) (s : State) : (applyReset d s).inputs = s.inputs := rfl

/-! ### The flags of `STATUS`, bit by bit -/

@[simp] theorem setTready_bit0 (b : Byte) : (setTready b)[0] = true := by simp [setTready]
@[simp] theorem setTready_bit1 (b : Byte) : (setTready b)[1] = b[1] := by simp [setTready]
@[simp] theorem setTready_bit2 (b : Byte) : (setTready b)[2] = b[2] := by simp [setTready]
@[simp] theorem setKvalid_bit0 (b : Byte) : (setKvalid b)[0] = b[0] := by simp [setKvalid]
@[simp] theorem setKvalid_bit1 (b : Byte) : (setKvalid b)[1] = true := by simp [setKvalid]
@[simp] theorem setKvalid_bit2 (b : Byte) : (setKvalid b)[2] = b[2] := by simp [setKvalid]
@[simp] theorem setFault_bit0 (b : Byte) : (setFault b)[0] = b[0] := by simp [setFault]
@[simp] theorem setFault_bit1 (b : Byte) : (setFault b)[1] = b[1] := by simp [setFault]
@[simp] theorem setFault_bit2 (b : Byte) : (setFault b)[2] = true := by simp [setFault]

@[simp] theorem enterFault_tready (c : Cause) (w : Word) (s : State) : (enterFault c w s).tready = s.tready := by
  simp [State.tready]
@[simp] theorem enterFault_kvalid (c : Cause) (w : Word) (s : State) : (enterFault c w s).kvalid = s.kvalid := by
  simp [State.kvalid]
@[simp] theorem enterFault_faulted (c : Cause) (w : Word) (s : State) : (enterFault c w s).faulted = true := by
  simp [State.faulted]
@[simp] theorem applyReset_tready (d : Draw) (s : State) : (applyReset d s).tready = false := by
  simp [State.tready]
@[simp] theorem applyReset_kvalid (d : Draw) (s : State) : (applyReset d s).kvalid = false := by
  simp [State.kvalid]
@[simp] theorem applyReset_faulted (d : Draw) (s : State) : (applyReset d s).faulted = false := by
  simp [State.faulted]

end Sys2Proof.Machine
end

