-- ==== Sys2Proof/Laws/Ops.lean ====
section
/-! SUPPORT. What the order of checks can do, said once; every command as one call of it; and what a step can do. The
later proofs cite these and do not unfold `issue`, `exec` or `step`. -/

namespace Sys2Proof.Machine

/-! ### The order of checks -/

/-- R177 step 1: a faulted core refuses. -/
theorem issue_faulted {i : Instr} {need : Readiness} {f : State → State} {s : State} (h : s.faulted = true) :
    issue i need f s = .next s := by
  simp [issue, h]

/-- R177 step 2. -/
theorem issue_illFormed {i : Instr} {need : Readiness} {f : State → State} {s : State} (h : s.faulted = false)
    (hw : i.wellFormed = false) : issue i need f s = .next (enterFault .illegalCommand (encode i) s) := by
  simp [issue, h, hw]

/-- R177 step 3. -/
theorem issue_noTables {i : Instr} {need : Readiness} {f : State → State} {s : State} (h : s.faulted = false)
    (hw : i.wellFormed = true) (hn : needsTables need = true) (ht : s.tready = false) :
    issue i need f s = .next (enterFault .incompleteTransform (encode i) s) := by
  simp [issue, h, hw, hn, ht]

/-- R177 step 4. -/
theorem issue_noKey {i : Instr} {need : Readiness} {f : State → State} {s : State} (h : s.faulted = false)
    (hw : i.wellFormed = true) (ht : s.tready = true) (hn : needsKey need = true) (hk : s.kvalid = false) :
    issue i need f s = .next (enterFault .keyNotSet (encode i) s) := by
  simp [issue, h, hw, ht, hn, hk]

/-- R177 step 5: the checks pass and the command takes effect. -/
theorem issue_ready {i : Instr} {need : Readiness} {f : State → State} {s : State} (h : s.faulted = false)
    (hw : i.wellFormed = true) (ht : needsTables need = true → s.tready = true)
    (hk : needsKey need = true → s.kvalid = true) : issue i need f s = .next (f s) := by
  cases hn : needsTables need <;> cases hq : needsKey need <;> simp_all [issue]

/-- Everything the order of checks can answer. -/
theorem issue_cases {i : Instr} {need : Readiness} {f : State → State} {s t : State} (h : issue i need f s = .next t) :
    (s.faulted = true ∧ t = s) ∨
    (s.faulted = false ∧ i.wellFormed = false ∧ t = enterFault .illegalCommand (encode i) s) ∨
    (s.faulted = false ∧ i.wellFormed = true ∧ needsTables need = true ∧ s.tready = false ∧
      t = enterFault .incompleteTransform (encode i) s) ∨
    (s.faulted = false ∧ i.wellFormed = true ∧ (needsTables need = true → s.tready = true) ∧ needsKey need = true ∧
      s.kvalid = false ∧ t = enterFault .keyNotSet (encode i) s) ∨
    (s.faulted = false ∧ i.wellFormed = true ∧ (needsTables need = true → s.tready = true) ∧
      (needsKey need = true → s.kvalid = true) ∧ t = f s) := by
  unfold issue at h
  split at h
  · left; exact ⟨‹_›, by injection h with h; exact h.symm⟩
  split at h
  · right; left
    exact ⟨by simp_all, by simp_all, by injection h with h; exact h.symm⟩
  split at h
  · right; right; left
    exact ⟨by simp_all, by simp_all, by simp_all, by simp_all, by injection h with h; exact h.symm⟩
  split at h
  · right; right; right; left
    exact ⟨by simp_all, by simp_all, by simp_all, by simp_all, by simp_all, by injection h with h; exact h.symm⟩
  · right; right; right; right
    exact ⟨by simp_all, by simp_all, by simp_all, by simp_all, by injection h with h; exact h.symm⟩

/-- Everything a word that does not decode can do. -/
theorem issueIllegal_cases {w : Word} {s t : State} (h : issueIllegal w s = .next t) :
    (s.faulted = true ∧ t = s) ∨ (s.faulted = false ∧ t = enterFault .illegalCommand w s) := by
  unfold issueIllegal at h
  split at h
  · left; exact ⟨‹_›, by injection h with h; exact h.symm⟩
  · right; exact ⟨by simp_all, by injection h with h; exact h.symm⟩

/-! ### Every command as one call of it -/

/-- The readiness a command's meaning passes to `issue`. -/
def readinessOf (i : Instr) : Readiness :=
  if needsKvalid i then .key else if needsTready i then .tables else .none

/-- The effect a command's meaning passes to `issue`. -/
def effectOf : Instr → State → State
  | .init, s => { s with tables := generateTables, status := setTready s.status }
  | .setkey ra rb, s =>
    { s with
      tables := if s.tready then s.tables else generateTables
      rk := keySchedule (s.block ra) (s.block rb)
      status := setKvalid (setTready s.status) }
  | .enc rd, s => s.setBlock rd (encrypt (applyLS s.tables.tEnc) s.rk (s.block rd))
  | .dec rd, s => s.setBlock rd (decrypt s.mulAt s.rk (s.block rd))
  | .setb rd idx imm8, s => s.setBlock rd (setByte (s.block rd) idx imm8)
  | .getb rs idx, s => s.setGr (s.blockByte rs idx)
  | .xor rd rs, s => s.setBlock rd (xorBlock (s.block rd) (s.block rs))
  | .gfmul a b, s => s.setGr (s.mulAt a b)
  | .pi imm8, s => s.setGr (sbox imm8)
  | .piinv imm8, s => s.setGr (sboxInv imm8)
  | .s rd rs, s => s.setBlock rd (transS (s.block rs))
  | .sinv rd rs, s => s.setBlock rd (transSInv (s.block rs))
  | .r rd rs, s => s.setBlock rd (stepR s.mulAt (s.block rs))
  | .rinv rd rs, s => s.setBlock rd (stepRInv s.mulAt (s.block rs))
  | .l rd rs, s => s.setBlock rd (transL s.mulAt (s.block rs))
  | .linv rd rs, s => s.setBlock rd (transLInv s.mulAt (s.block rs))
  | .matl rd rs, s => s.setBlock rd (matVec s.mulAt s.tables.lmat (s.block rs))
  | .matli rd rs, s => s.setBlock rd (matVec s.mulAt s.tables.linv (s.block rs))
  | .getl k i, s => s.setGr (s.lmatAt k i)
  | .getli k i, s => s.setGr (s.linvAt k i)
  | .gette i v k, s => s.setGr (fusedByte s.tables.tEnc i v k)
  | .gettd i v k, s => s.setGr (fusedByte s.tables.tDec i v k)
  | .getti i v k, s => s.setGr (fusedByte s.tables.tDinv i v k)
  | .lsenc rd rs, s => s.setBlock rd (applyLS s.tables.tEnc (s.block rs))
  | .lsdec rd rs, s => s.setBlock rd (applyLS s.tables.tDec (s.block rs))
  | .ldinv rd rs, s => s.setBlock rd (applyLS s.tables.tDinv (s.block rs))
  | .rcon rd imm8, s => s.setBlock rd (roundConst s.mulAt imm8.toNat)
  | .fstep ra rb rk, s =>
    (s.setBlock ra (feistel (applyLS s.tables.tEnc) (s.block rk) (s.block ra) (s.block rb)).1).setBlock rb
      (feistel (applyLS s.tables.tEnc) (s.block rk) (s.block ra) (s.block rb)).2
  | .getrk rd idx, s => s.setBlock rd (s.roundKey idx)

/-- Every command is one call of the order of checks. -/
theorem exec_eq_issue (i : Instr) (s : State) : exec i s = issue i (readinessOf i) (effectOf i) s := by
  cases i <;> rfl

@[simp] theorem needsTables_readinessOf (i : Instr) : needsTables (readinessOf i) = needsTready i := by
  cases i <;> rfl

@[simp] theorem needsKey_readinessOf (i : Instr) : needsKey (readinessOf i) = needsKvalid i := by
  cases i <;> rfl

/-- A command whose checks pass has its effect. -/
theorem exec_ready {i : Instr} {s : State} (h : s.faulted = false) (hw : i.wellFormed = true)
    (ht : needsTready i = true → s.tready = true) (hk : needsKvalid i = true → s.kvalid = true) :
    exec i s = .next (effectOf i s) := by
  rw [exec_eq_issue]
  exact issue_ready h hw (by simpa using ht) (by simpa using hk)

/-- Everything a command can answer: the state it found, a fault entry, or its effect. -/
theorem exec_cases {i : Instr} {s t : State} (h : exec i s = .next t) :
    (s.faulted = true ∧ t = s) ∨
    (s.faulted = false ∧ ∃ c, t = enterFault c (encode i) s) ∨
    (s.faulted = false ∧ i.wellFormed = true ∧ (needsTready i = true → s.tready = true) ∧
      (needsKvalid i = true → s.kvalid = true) ∧ t = effectOf i s) := by
  rw [exec_eq_issue] at h
  rcases issue_cases h with h | ⟨hf, -, ht⟩ | ⟨hf, -, -, -, ht⟩ | ⟨hf, -, -, -, -, ht⟩ | ⟨hf, hw, hn, hk, ht⟩
  · exact .inl h
  · exact .inr (.inl ⟨hf, _, ht⟩)
  · exact .inr (.inl ⟨hf, _, ht⟩)
  · exact .inr (.inl ⟨hf, _, ht⟩)
  · exact .inr (.inr ⟨hf, hw, by simpa using hn, by simpa using hk, ht⟩)

/-- No effect records a fault or takes a move of the host. -/
theorem effectOf_frame (i : Instr) (s : State) :
    (effectOf i s).cause = s.cause ∧ (effectOf i s).finfo = s.finfo ∧ (effectOf i s).faulted = s.faulted ∧
      (effectOf i s).inputs = s.inputs := by
  cases i <;> simp [effectOf, State.faulted]

/-! ### The command port -/

@[simp] theorem takeInput_nil {s : State} (h : s.inputs = []) : takeInput s = none := by
  simp [takeInput, h]

@[simp] theorem takeInput_cons {s : State} {m : HostMove} {rest : List HostMove} (h : s.inputs = m :: rest) :
    takeInput s = some (m, { s with inputs := rest }) := by
  simp [takeInput, h]

@[simp] theorem takeInput_presentWord (w : Word) (s : State) :
    takeInput (presentWord w s) = some (.command w, s) := by
  cases s; rfl

/-- Everything a step can do. -/
theorem step_cases {s t : State} (h : step s = .next t) :
    (s.inputs = [] ∧ t = s) ∨
    (∃ d rest, s.inputs = .reset d :: rest ∧ t = applyReset d { s with inputs := rest }) ∨
    (∃ w rest i, s.inputs = .command w :: rest ∧ decode w = .ok i ∧ exec i { s with inputs := rest } = .next t) ∨
    (∃ w rest e, s.inputs = .command w :: rest ∧ decode w = .error e ∧
      issueIllegal w { s with inputs := rest } = .next t) := by
  unfold step at h
  rcases hs : s.inputs with _ | ⟨m, rest⟩
  · rw [takeInput_nil hs] at h
    left; exact ⟨rfl, by injection h with h; exact h.symm⟩
  · rw [takeInput_cons hs] at h
    cases m with
    | reset d => right; left; exact ⟨d, rest, rfl, by injection h with h; exact h.symm⟩
    | command w =>
      right; right
      cases hd : decode w with
      | ok i => left; exact ⟨w, rest, i, rfl, hd, by simpa [hd] using h⟩
      | error e => right; exact ⟨w, rest, e, rfl, hd, by simpa [hd] using h⟩

end Sys2Proof.Machine
end

