-- ==== Sys2Proof/Laws/PerInstr.lean ====
section
/-! SUPPORT. The statements made for every command, one lemma per constructor of `Instr`. The family `EncodeRow` says that
the word of a command carries the opcode, passes the mask and gives back the operands of its own row of the opcode map
(spec/30_encoding.md R54). -/

namespace Sys2Proof.Laws.EncodeRow

/-- Row `n` of the opcode map, and no other fact, is named for each command in its lemma below. -/
def Statement (i : Instr) : Prop :=
  ∃ (n : Nat) (row : Row), opcodeMap[n]? = some row ∧ row.opcode = (fieldsOf (encode i)).op ∧ encode i &&& row.mask = row.pattern ∧
    row.build (fieldsOf (encode i)) = i

/-- The shape of every lemma below: the mask test field by field. -/
theorem intro_row {i : Instr} {row : Row} (n : Nat) (hn : opcodeMap[n]? = some row)
    (ho : row.opcode = (fieldsOfInstr i).op)
    (hm : (fieldsOfInstr i).op &&& (fieldsOf row.mask).op = (fieldsOf row.pattern).op ∧
      (fieldsOfInstr i).rd &&& (fieldsOf row.mask).rd = (fieldsOf row.pattern).rd ∧
      (fieldsOfInstr i).rs &&& (fieldsOf row.mask).rs = (fieldsOf row.pattern).rs ∧
      (fieldsOfInstr i).rt &&& (fieldsOf row.mask).rt = (fieldsOf row.pattern).rt ∧
      (fieldsOfInstr i).idx &&& (fieldsOf row.mask).idx = (fieldsOf row.pattern).idx ∧
      (fieldsOfInstr i).imm8 &&& (fieldsOf row.mask).imm8 = (fieldsOf row.pattern).imm8)
    (hb : row.build (fieldsOfInstr i) = i) : Statement i := by
  refine ⟨n, row, hn, ?_, ?_, ?_⟩
  · rw [fieldsOf_encode]; exact ho
  · rw [and_eq_iff, fieldsOf_encode]; exact hm
  · rw [fieldsOf_encode]; exact hb

theorem init : Statement .init :=
  intro_row 0 rfl rfl (by decide) rfl

theorem setkey (ra : Reg) (rb : Reg) : Statement (.setkey ra rb) :=
  intro_row 1 rfl rfl (by simp [fieldsOf, fieldsOfInstr]) (by simp [fieldsOfInstr])

theorem enc (rd : Reg) : Statement (.enc rd) :=
  intro_row 2 rfl rfl (by simp [fieldsOf, fieldsOfInstr]) (by simp [fieldsOfInstr])

theorem dec (rd : Reg) : Statement (.dec rd) :=
  intro_row 3 rfl rfl (by simp [fieldsOf, fieldsOfInstr]) (by simp [fieldsOfInstr])

theorem setb (rd : Reg) (idx : Pos) (imm8 : Byte) : Statement (.setb rd idx imm8) :=
  intro_row 4 rfl rfl (by simp [fieldsOf, fieldsOfInstr]) (by simp [fieldsOfInstr])

theorem getb (rs : Reg) (idx : Pos) : Statement (.getb rs idx) :=
  intro_row 5 rfl rfl (by simp [fieldsOf, fieldsOfInstr]) (by simp [fieldsOfInstr])

theorem xor (rd : Reg) (rs : Reg) : Statement (.xor rd rs) :=
  intro_row 6 rfl rfl (by simp [fieldsOf, fieldsOfInstr]) (by simp [fieldsOfInstr])

theorem gfmul (a : Byte) (b : Byte) : Statement (.gfmul a b) :=
  intro_row 7 rfl rfl (by simp [fieldsOf, fieldsOfInstr]) (by simp [fieldsOfInstr])

theorem pi (imm8 : Byte) : Statement (.pi imm8) :=
  intro_row 8 rfl rfl (by simp [fieldsOf, fieldsOfInstr]) (by simp [fieldsOfInstr])

theorem piinv (imm8 : Byte) : Statement (.piinv imm8) :=
  intro_row 9 rfl rfl (by simp [fieldsOf, fieldsOfInstr]) (by simp [fieldsOfInstr])

theorem s (rd : Reg) (rs : Reg) : Statement (.s rd rs) :=
  intro_row 10 rfl rfl (by simp [fieldsOf, fieldsOfInstr]) (by simp [fieldsOfInstr])

theorem sinv (rd : Reg) (rs : Reg) : Statement (.sinv rd rs) :=
  intro_row 11 rfl rfl (by simp [fieldsOf, fieldsOfInstr]) (by simp [fieldsOfInstr])

theorem r (rd : Reg) (rs : Reg) : Statement (.r rd rs) :=
  intro_row 12 rfl rfl (by simp [fieldsOf, fieldsOfInstr]) (by simp [fieldsOfInstr])

theorem rinv (rd : Reg) (rs : Reg) : Statement (.rinv rd rs) :=
  intro_row 13 rfl rfl (by simp [fieldsOf, fieldsOfInstr]) (by simp [fieldsOfInstr])

theorem l (rd : Reg) (rs : Reg) : Statement (.l rd rs) :=
  intro_row 14 rfl rfl (by simp [fieldsOf, fieldsOfInstr]) (by simp [fieldsOfInstr])

theorem linv (rd : Reg) (rs : Reg) : Statement (.linv rd rs) :=
  intro_row 15 rfl rfl (by simp [fieldsOf, fieldsOfInstr]) (by simp [fieldsOfInstr])

theorem matl (rd : Reg) (rs : Reg) : Statement (.matl rd rs) :=
  intro_row 16 rfl rfl (by simp [fieldsOf, fieldsOfInstr]) (by simp [fieldsOfInstr])

theorem matli (rd : Reg) (rs : Reg) : Statement (.matli rd rs) :=
  intro_row 17 rfl rfl (by simp [fieldsOf, fieldsOfInstr]) (by simp [fieldsOfInstr])

theorem getl (k : Pos) (i : Pos) : Statement (.getl k i) :=
  intro_row 18 rfl rfl (by simp [fieldsOf, fieldsOfInstr]) (by simp [fieldsOfInstr])

theorem getli (k : Pos) (i : Pos) : Statement (.getli k i) :=
  intro_row 19 rfl rfl (by simp [fieldsOf, fieldsOfInstr]) (by simp [fieldsOfInstr])

theorem gette (i : Pos) (v : Byte) (k : Pos) : Statement (.gette i v k) :=
  intro_row 20 rfl rfl (by simp [fieldsOf, fieldsOfInstr]) (by simp [fieldsOfInstr])

theorem gettd (i : Pos) (v : Byte) (k : Pos) : Statement (.gettd i v k) :=
  intro_row 21 rfl rfl (by simp [fieldsOf, fieldsOfInstr]) (by simp [fieldsOfInstr])

theorem getti (i : Pos) (v : Byte) (k : Pos) : Statement (.getti i v k) :=
  intro_row 22 rfl rfl (by simp [fieldsOf, fieldsOfInstr]) (by simp [fieldsOfInstr])

theorem lsenc (rd : Reg) (rs : Reg) : Statement (.lsenc rd rs) :=
  intro_row 23 rfl rfl (by simp [fieldsOf, fieldsOfInstr]) (by simp [fieldsOfInstr])

theorem lsdec (rd : Reg) (rs : Reg) : Statement (.lsdec rd rs) :=
  intro_row 24 rfl rfl (by simp [fieldsOf, fieldsOfInstr]) (by simp [fieldsOfInstr])

theorem ldinv (rd : Reg) (rs : Reg) : Statement (.ldinv rd rs) :=
  intro_row 25 rfl rfl (by simp [fieldsOf, fieldsOfInstr]) (by simp [fieldsOfInstr])

theorem rcon (rd : Reg) (imm8 : Byte) : Statement (.rcon rd imm8) :=
  intro_row 26 rfl rfl (by simp [fieldsOf, fieldsOfInstr]) (by simp [fieldsOfInstr])

theorem fstep (ra : Reg) (rb : Reg) (rk : Reg) : Statement (.fstep ra rb rk) :=
  intro_row 27 rfl rfl (by simp [fieldsOf, fieldsOfInstr]) (by simp [fieldsOfInstr])

theorem getrk (rd : Reg) (idx : Pos) : Statement (.getrk rd idx) :=
  intro_row 28 rfl rfl (by simp [fieldsOf, fieldsOfInstr]) (by simp [fieldsOfInstr])

end Sys2Proof.Laws.EncodeRow
end

