-- ==== Sys2Proof/Tests/Slice0.lean ====
section
/-! SUPPORT. Small tests of one step each, with the values that spec/ lists (spec/95_test_vectors.md and the examples of the
rules), and a witness for the hypotheses of each statement. -/

namespace Sys2Proof.Tests

-- Each proof is checked before the next one starts, so that the checks waiting for one another stay few.
set_option Elab.async false

open Sys2Proof Sys2Proof.Machine Sys2Proof.Statements

/-! ### Well-formed and ill-formed commands (R57, R58) -/

theorem test_rcon_zero_illFormed : (Instr.rcon 0 0).wellFormed = false := by decide
theorem test_rcon_33_illFormed : (Instr.rcon 0 33).wellFormed = false := by decide
theorem test_rcon_bounds : (Instr.rcon 0 1).wellFormed = true ∧ (Instr.rcon 0 32).wellFormed = true := by decide
theorem test_fstep_same_register_illFormed : (Instr.fstep 1 1 2).wellFormed = false := by decide
theorem test_fstep_key_register_overlap : (Instr.fstep 0 1 0).wellFormed = true ∧ (Instr.fstep 0 1 1).wellFormed = true := by
  decide
theorem test_getrk_zero_illFormed : (Instr.getrk 0 0).wellFormed = false := by decide
theorem test_getrk_11_illFormed : (Instr.getrk 0 11).wellFormed = false := by decide
theorem test_getrk_bounds : (Instr.getrk 0 1).wellFormed = true ∧ (Instr.getrk 0 10).wellFormed = true := by decide

/-! ### Decoding: words written out from R51, R54 and the vectors of section 2.9 -/

/-- Lifecycle. -/
theorem test_decode_setkey : decode 0b00000010000000010000000000000000 = .ok (.setkey 0 1) := by decide +kernel
/-- Block. -/
theorem test_decode_setb : decode 0b00010000001100000000111111111111 = .ok (.setb 3 15 0xff) := by decide +kernel
/-- Field: `a` is the two fields `rt` and `idx`. -/
theorem test_decode_gfmul : decode 0b00100000000000000000001010000000 = .ok (.gfmul 0x02 0x80) := by decide +kernel
/-- Substitution. -/
theorem test_decode_s : decode 0b00110010001000000000000000000000 = .ok (.s 2 0) := by decide +kernel
/-- Diffusion. -/
theorem test_decode_rinv : decode 0b01000001000100000000000000000000 = .ok (.rinv 1 0) := by decide +kernel
/-- Matrices: `k` is `rt` and `i` is `idx`. -/
theorem test_decode_getl : decode 0b01000110000000001111000000000000 = .ok (.getl 15 0) := by decide +kernel
/-- Fused tables: `i` is `rt`, `v` is `imm8`, `k` is `idx`. -/
theorem test_decode_gette : decode 0b01010000000000001111001111111111 = .ok (.gette 15 0xff 3) := by decide +kernel
/-- Fused passes. -/
theorem test_decode_lsenc : decode 0b01011000001100000000000000000000 = .ok (.lsenc 3 0) := by decide +kernel
/-- Key schedule. -/
theorem test_decode_fstep : decode 0b01100001000000010010000000000000 = .ok (.fstep 0 1 2) := by decide +kernel

theorem test_encode_words :
    encode .init = 0x01000000 ∧ encode (.setb 0 14 0x01) = 0x10000E01 ∧ encode (.getb 0 15) = 0x11000F00 ∧
    encode (.gfmul 0x02 0x80) = 0x20000280 ∧ encode (.pi 0xff) = 0x300000FF ∧ encode (.getl 15 0) = 0x4600F000 ∧
    encode (.gette 15 0xff 3) = 0x5000F3FF ∧ encode (.rcon 2 1) = 0x60200001 ∧ encode (.fstep 0 1 2) = 0x61012000 ∧
    encode (.getrk 3 10) = 0x62300A00 := by decide +kernel

/-- R59: unassigned opcodes. -/
theorem test_decode_unassigned :
    decode 0x00000000 = .error .unassignedOpcode ∧ decode 0xFF000000 = .error .unassignedOpcode ∧
    decode 0x05000000 = .error .unassignedOpcode ∧ decode 0x13000000 = .error .unassignedOpcode := by decide +kernel
/-- R55: a nonzero unused field. -/
theorem test_decode_unused_field :
    decode 0x01000001 = .error .maskMismatch ∧ decode 0x01100000 = .error .maskMismatch ∧
    decode 0x12011000 = .error .maskMismatch ∧ decode 0x12010001 = .error .maskMismatch ∧
    decode 0x11100000 = .error .maskMismatch ∧ decode 0x30000100 = .error .maskMismatch ∧
    decode 0x20010000 = .error .maskMismatch ∧ decode 0x46100000 = .error .maskMismatch ∧
    decode 0x5001F3FF = .error .maskMismatch ∧ decode 0x62000101 = .error .maskMismatch ∧
    decode 0x03010000 = .error .maskMismatch := by decide +kernel
/-- R56: a register field above 3. -/
theorem test_decode_register_field :
    decode 0x32400000 = .error .maskMismatch ∧ decode 0x32040000 = .error .maskMismatch ∧
    decode 0x32F00000 = .error .maskMismatch ∧ decode 0x10400000 = .error .maskMismatch ∧
    decode 0x61014000 = .error .maskMismatch := by decide +kernel
/-- R57, R58: the extra checks, and the words on their edges. -/
theorem test_decode_extra_checks :
    decode 0x60000000 = .error .extraCheck ∧ decode 0x60000021 = .error .extraCheck ∧
    decode 0x62000000 = .error .extraCheck ∧ decode 0x62000B00 = .error .extraCheck ∧
    decode 0x61112000 = .error .extraCheck ∧ decode 0x60000020 = .ok (.rcon 0 32) ∧
    decode 0x62000A00 = .ok (.getrk 0 10) ∧ decode 0x61010000 = .ok (.fstep 0 1 0) := by decide +kernel
theorem test_decodeTableWord : decodeTableWord 32 0x4600FF00 = some (.getl 15 15) ∧ decodeTableWord 32 0 = none := by
  decide +kernel

/-! ### The assembler's text (R61, R62) -/

theorem test_assemble_setb : assembleLine "SETB B0, 14, 0x01".toList = some [.setb 0 14 0x01] := by decide +kernel
theorem test_assemble_gette : assembleLine "GETTE 15, 0xff, 3".toList = some [.gette 15 0xff 3] := by decide +kernel
theorem test_assemble_mov : assembleLine "MOV B3, B0".toList = some [.xor 3 3, .xor 3 0] := by decide +kernel
/-- Log entry 21: a line whose word would be illegal is rejected. -/
theorem test_assemble_illFormed :
    assembleLine "FSTEP B1, B1, B2".toList = none ∧ assembleLine "RCON B0, 0".toList = none ∧
    assembleLine "GETRK B0, 11".toList = none := by decide +kernel
theorem test_assemble_mov_same : assembleLine "MOV B3, B3".toList = none := by decide +kernel
theorem test_asmText_fstep : asmText (.fstep 0 1 2) = "FSTEP B0, B1, B2".toList := by decide +kernel

/-! ### The host's text (R74, R75): section 2.1 of the vectors -/

theorem test_formatHex :
    formatHex (blockOfInt 0x000102030405060708090a0b0c0d0e0f) = "000102030405060708090a0b0c0d0e0f".toList := by
  decide +kernel
theorem test_parseHex :
    parseHex "94000000000000000000000000000001".toList = .ok (blockOfInt 0x94000000000000000000000000000001) := by
  decide +kernel
theorem test_parseHex_lengths :
    parseHex "".toList = .error .invalidFormat ∧
    parseHex "9400000000000000000000000000000".toList = .error .invalidFormat ∧
    parseHex "940000000000000000000000000000010".toList = .error .invalidFormat := by decide +kernel
theorem test_parseHex_characters :
    parseHex "9400000000000000000000000000000g".toList = .error .invalidFormat ∧
    parseHex "94 00000000000000000000000000001".toList = .error .invalidFormat ∧
    parseHex "FFEEDDCCBBAA99881122334455667700".toList = .error .invalidFormat := by decide +kernel

/-- R192: 16 + 16 + 1 + 16 + 1 + 16 commands. -/
theorem test_encryptOneBlock_length : (encryptOneBlock zeroBlock zeroBlock zeroBlock).length = 66 := by decide +kernel

/-! ### One step of each command -/

/-- The listed matrices of R125 and tables fused with them, so that a test need not square a matrix. -/
def listedTables : Tables where
  mul := generateMul
  lmat := listedLmat
  linv := listedLinv
  tEnc := fuse sbox listedLmat
  tDec := fuse sboxInv listedLinv
  tDinv := fuse (fun v => v) listedLinv

/-- R153: the ten round keys of the source's key. -/
def listedKeys : Vector Block Config.nrk := #v[
  blockOfInt 0x8899aabbccddeeff0011223344556677, blockOfInt 0xfedcba98765432100123456789abcdef,
  blockOfInt 0xdb31485315694343228d6aef8cc78c44, blockOfInt 0x3d4553d8e9cfec6815ebadc40a9ffd04,
  blockOfInt 0x57646468c44a5e28d3e59246f429f1ac, blockOfInt 0xbd079435165c6432b532e82834da581b,
  blockOfInt 0x51e640757e8745de705727265a0098b1, blockOfInt 0x5a7925017b9fdd3ed72a91a22286f984,
  blockOfInt 0xbb44e25378c73123a5f32f73cdb6e517, blockOfInt 0x72e9dd7416bcf45b755dbaa88e4a4043]

/-- A core with the given `STATUS` and `B0..B2`; `B3` is zero. -/
def start (status : Byte) (b0 b1 b2 : Nat) : State :=
  { State.reset with
    status := status
    blocks := #v[blockOfInt b0, blockOfInt b1, blockOfInt b2, zeroBlock]
    rk := listedKeys
    tables := listedTables }

theorem start_mulAt (status : Byte) (b0 b1 b2 : Nat) : (start status b0 b1 b2).mulAt = gfMul := by
  funext a b
  simp [State.mulAt, mulRead, start, listedTables, generateMul]

theorem start_block0 (status : Byte) (b0 b1 b2 : Nat) : (start status b0 b1 b2).block 0 = blockOfInt b0 := rfl
theorem start_block1 (status : Byte) (b0 b1 b2 : Nat) : (start status b0 b1 b2).block 1 = blockOfInt b1 := rfl
theorem start_block2 (status : Byte) (b0 b1 b2 : Nat) : (start status b0 b1 b2).block 2 = blockOfInt b2 := rfl

/-- A command whose checks pass and whose effect writes one block register. -/
theorem runs_block {i : Instr} {s : State} {rd : Reg} {x y : Block} (h : s.faulted = false) (hw : i.wellFormed = true)
    (ht : needsTready i = true → s.tready = true) (hk : needsKvalid i = true → s.kvalid = true)
    (he : effectOf i s = s.setBlock rd x) (hx : x = y) : exec i s = .next (s.setBlock rd y) := by
  rw [exec_ready h hw ht hk, he, hx]

/-- A command whose checks pass and whose effect writes `GR`. -/
theorem runs_gr {i : Instr} {s : State} {x y : Byte} (h : s.faulted = false) (hw : i.wellFormed = true)
    (ht : needsTready i = true → s.tready = true) (hk : needsKvalid i = true → s.kvalid = true)
    (he : effectOf i s = s.setGr x) (hx : x = y) : exec i s = .next (s.setGr y) := by
  rw [exec_ready h hw ht hk, he, hx]

/-- R72; the other 15 bytes are kept. -/
theorem test_setb :
    exec (.setb 0 0 0x00) (start 0 0xffeeddccbbaa99881122334455667700 0 0) =
      .next ((start 0 0xffeeddccbbaa99881122334455667700 0 0).setBlock 0 (blockOfInt 0x00eeddccbbaa99881122334455667700)) :=
  runs_block rfl rfl (by decide) (by decide) rfl (by decide +kernel)
theorem test_setb_last :
    exec (.setb 0 15 0xff) (start 0 0xffeeddccbbaa99881122334455667700 0 0) =
      .next ((start 0 0xffeeddccbbaa99881122334455667700 0 0).setBlock 0 (blockOfInt 0xffeeddccbbaa998811223344556677ff)) :=
  runs_block rfl rfl (by decide) (by decide) rfl (by decide +kernel)
/-- R73: position 15 is the last byte of the text form. -/
theorem test_getb :
    exec (.getb 0 15) (start 0 0x7f679d90bebc24305a468d42b9d4edcd 0 0) =
      .next ((start 0 0x7f679d90bebc24305a468d42b9d4edcd 0 0).setGr 0xcd) :=
  runs_gr rfl rfl (by decide) (by decide) rfl (by decide +kernel)
theorem test_getb_first :
    exec (.getb 0 0) (start 0 0x7f679d90bebc24305a468d42b9d4edcd 0 0) =
      .next ((start 0 0x7f679d90bebc24305a468d42b9d4edcd 0 0).setGr 0x7f) :=
  runs_gr rfl rfl (by decide) (by decide) rfl (by decide +kernel)
theorem test_xor :
    exec (.xor 0 1) (start 0 0x1122334455667700ffeeddccbbaa9988 0x8899aabbccddeeff0011223344556677 0) =
      .next ((start 0 0x1122334455667700ffeeddccbbaa9988 0x8899aabbccddeeff0011223344556677 0).setBlock 0
        (blockOfInt 0x99bb99ff99bb99ffffffffffffffffff)) :=
  runs_block rfl rfl (by decide) (by decide) rfl (by decide +kernel)
/-- R71: a register with itself. -/
theorem test_xor_self :
    exec (.xor 2 2) (start 0 0 0 0x1122334455667700ffeeddccbbaa9988) =
      .next ((start 0 0 0 0x1122334455667700ffeeddccbbaa9988).setBlock 2 zeroBlock) :=
  runs_block rfl rfl (by decide) (by decide) rfl (by decide +kernel)
/-- R85: the first reduction. -/
theorem test_gfmul : exec (.gfmul 0x02 0x80) (start 1 0 0 0) = .next ((start 1 0 0 0).setGr 0xc3) :=
  runs_gr rfl rfl (by decide) (by decide) rfl (by rw [start_mulAt]; decide +kernel)
theorem test_gfmul_max : exec (.gfmul 0xff 0xff) (start 1 0 0 0) = .next ((start 1 0 0 0).setGr 0x06) :=
  runs_gr rfl rfl (by decide) (by decide) rfl (by rw [start_mulAt]; decide +kernel)
theorem test_pi : exec (.pi 0xff) (start 0 0 0 0) = .next ((start 0 0 0 0).setGr 0xb6) :=
  runs_gr rfl rfl (by decide) (by decide) rfl (by decide +kernel)
theorem test_pi_7f : exec (.pi 0x7f) (start 0 0 0 0) = .next ((start 0 0 0 0).setGr 0x57) :=
  runs_gr rfl rfl (by decide) (by decide) rfl (by decide +kernel)
theorem test_piinv : exec (.piinv 0xfc) (start 0 0 0 0) = .next ((start 0 0 0 0).setGr 0x00) :=
  runs_gr rfl rfl (by decide) (by decide) rfl (by decide +kernel)
theorem test_piinv_ff : exec (.piinv 0xff) (start 0 0 0 0) = .next ((start 0 0 0 0).setGr 0x74) :=
  runs_gr rfl rfl (by decide) (by decide) rfl (by decide +kernel)
theorem test_s :
    exec (.s 1 0) (start 0 0xffeeddccbbaa99881122334455667700 0 0) =
      .next ((start 0 0xffeeddccbbaa99881122334455667700 0 0).setBlock 1 (blockOfInt 0xb66cd8887d38e8d77765aeea0c9a7efc)) :=
  runs_block rfl rfl (by decide) (by decide) rfl (by decide +kernel)
theorem test_sinv :
    exec (.sinv 1 0) (start 0 0xffeeddccbbaa99881122334455667700 0 0) =
      .next ((start 0 0xffeeddccbbaa99881122334455667700 0 0).setBlock 1 (blockOfInt 0x7401024f1bda16cc038d9da7b6f911a5)) :=
  runs_block rfl rfl (by decide) (by decide) rfl (by decide +kernel)
theorem test_r :
    exec (.r 1 0) (start 1 0x1122334455667700ffeeddccbbaa9988 0 0) =
      .next ((start 1 0x1122334455667700ffeeddccbbaa9988 0 0).setBlock 1 (blockOfInt 0xf51122334455667700ffeeddccbbaa99)) :=
  runs_block rfl rfl (by decide) (by decide) rfl (by rw [start_mulAt]; decide +kernel)
/-- R106: the source's vector V2. -/
theorem test_r_source :
    exec (.r 0 0) (start 1 0x00000000000000000000000000000100 0 0) =
      .next ((start 1 0x00000000000000000000000000000100 0 0).setBlock 0 (blockOfInt 0x94000000000000000000000000000001)) :=
  runs_block rfl rfl (by decide) (by decide) rfl (by rw [start_mulAt]; decide +kernel)
theorem test_rinv :
    exec (.rinv 1 0) (start 1 0x1122334455667700ffeeddccbbaa9988 0 0) =
      .next ((start 1 0x1122334455667700ffeeddccbbaa9988 0 0).setBlock 1 (blockOfInt 0x22334455667700ffeeddccbbaa998818)) :=
  runs_block rfl rfl (by decide) (by decide) rfl (by rw [start_mulAt]; decide +kernel)
theorem test_l :
    exec (.l 1 0) (start 1 0x64a59400000000000000000000000000 0 0) =
      .next ((start 1 0x64a59400000000000000000000000000 0 0).setBlock 1 (blockOfInt 0xd456584dd0e3e84cc3166e4b7fa2890d)) :=
  runs_block rfl rfl (by decide) (by decide) rfl (by rw [start_mulAt, transL_eq_bytes]; decide +kernel)
theorem test_linv :
    exec (.linv 1 0) (start 1 0x00000000000000000000000000000100 0 0) =
      .next ((start 1 0x00000000000000000000000000000100 0 0).setBlock 1 (blockOfInt 0x202d99e9959fd449e6d576f233c82098)) :=
  runs_block rfl rfl (by decide) (by decide) rfl (by rw [start_mulAt, transLInv_eq_bytes]; decide +kernel)
theorem test_matl :
    exec (.matl 1 0) (start 1 0x000102030405060708090a0b0c0d0e0f 0 0) =
      .next ((start 1 0x000102030405060708090a0b0c0d0e0f 0 0).setBlock 1 (blockOfInt 0x8d234be8660b4b5ff5716722de20c9d7)) :=
  runs_block rfl rfl (by decide) (by decide) rfl (by rw [start_mulAt]; decide +kernel)
theorem test_matli :
    exec (.matli 1 0) (start 1 0x000102030405060708090a0b0c0d0e0f 0 0) =
      .next ((start 1 0x000102030405060708090a0b0c0d0e0f 0 0).setBlock 1 (blockOfInt 0xa8d953847430ad60b86e1858127686e5)) :=
  runs_block rfl rfl (by decide) (by decide) rfl (by rw [start_mulAt]; decide +kernel)
/-- R131: row 15, column 7. -/
theorem test_getl : exec (.getl 15 7) (start 1 0 0 0) = .next ((start 1 0 0 0).setGr 0xfb) :=
  runs_gr rfl rfl (by decide) (by decide) rfl (by decide +kernel)
/-- R132: row 15, column 0. -/
theorem test_getli : exec (.getli 15 0) (start 1 0 0 0) = .next ((start 1 0 0 0).setGr 0x6e) :=
  runs_gr rfl rfl (by decide) (by decide) rfl (by decide +kernel)
theorem test_gette : exec (.gette 15 0xff 3) (start 1 0 0 0) = .next ((start 1 0 0 0).setGr 0x38) :=
  runs_gr rfl rfl (by decide) (by decide) rfl ((fusedRead_fuse sbox listedLmat 15 0xff 3 (by decide)).trans (by decide +kernel))
theorem test_gettd : exec (.gettd 0 0x00 0) (start 1 0 0 0) = .next ((start 1 0 0 0).setGr 0xa5) :=
  runs_gr rfl rfl (by decide) (by decide) rfl ((fusedRead_fuse sboxInv listedLinv 0 0x00 0 (by decide)).trans (by decide +kernel))
theorem test_getti : exec (.getti 14 0x01 1) (start 1 0 0 0) = .next ((start 1 0 0 0).setGr 0x2d) :=
  runs_gr rfl rfl (by decide) (by decide) rfl
    ((fusedRead_fuse (fun v => v) listedLinv 14 0x01 1 (by decide)).trans (by decide +kernel))
theorem test_lsenc :
    exec (.lsenc 1 0) (start 1 0xffeeddccbbaa99881122334455667700 0 0) =
      .next ((start 1 0xffeeddccbbaa99881122334455667700 0 0).setBlock 1 (blockOfInt 0xf06454ba4e2399243024b4f789f742e4)) :=
  runs_block rfl rfl (by decide) (by decide) rfl ((applyLS_fuse sbox listedLmat _).trans (by decide +kernel))
theorem test_lsdec :
    exec (.lsdec 1 0) (start 1 0xffeeddccbbaa99881122334455667700 0 0) =
      .next ((start 1 0xffeeddccbbaa99881122334455667700 0 0).setBlock 1 (blockOfInt 0x6652473e51339d3d7ad7390c0d587033)) :=
  runs_block rfl rfl (by decide) (by decide) rfl ((applyLS_fuse sboxInv listedLinv _).trans (by decide +kernel))
theorem test_ldinv :
    exec (.ldinv 1 0) (start 1 0xffeeddccbbaa99881122334455667700 0 0) =
      .next ((start 1 0xffeeddccbbaa99881122334455667700 0 0).setBlock 1 (blockOfInt 0x690443283febbad11754c32bb8ea3e62)) :=
  runs_block rfl rfl (by decide) (by decide) rfl ((applyLS_fuse (fun v => v) listedLinv _).trans (by decide +kernel))
theorem test_rcon :
    exec (.rcon 2 1) (start 1 0 0 0) = .next ((start 1 0 0 0).setBlock 2 (blockOfInt 0x6ea276726c487ab85d27bd10dd849401)) :=
  runs_block rfl rfl (by decide) (by decide) rfl (by rw [start_mulAt, roundConst, transL_eq_bytes]; decide +kernel)
/-- R157: `RK[10]`, the last. -/
theorem test_getrk :
    exec (.getrk 3 10) (start 3 0 0 0) = .next ((start 3 0 0 0).setBlock 3 (blockOfInt 0x72e9dd7416bcf45b755dbaa88e4a4043)) :=
  runs_block rfl rfl (by decide) (by decide) rfl (by decide +kernel)
theorem test_getrk_first :
    exec (.getrk 3 1) (start 3 0 0 0) = .next ((start 3 0 0 0).setBlock 3 (blockOfInt 0x8899aabbccddeeff0011223344556677)) :=
  runs_block rfl rfl (by decide) (by decide) rfl (by decide +kernel)

/-- R156: `FSTEP B0, B1, B2` with the first round constant. -/
theorem test_fstep :
    exec (.fstep 0 1 2) (start 1 0x8899aabbccddeeff0011223344556677 0xfedcba98765432100123456789abcdef
        0x6ea276726c487ab85d27bd10dd849401) =
      .next (((start 1 0x8899aabbccddeeff0011223344556677 0xfedcba98765432100123456789abcdef
        0x6ea276726c487ab85d27bd10dd849401).setBlock 0 (blockOfInt 0xc3d5fa01ebe36f7a9374427ad7ca8949)).setBlock 1
        (blockOfInt 0x8899aabbccddeeff0011223344556677)) := by
  refine (exec_ready rfl rfl (by decide) (by decide)).trans ?_
  refine congrArg (fun x => Host.Outcome.next (State.setBlock (State.setBlock _ 0 x) 1 _)) ?_
  refine (congrArg (fun z => xorBlock z _) (applyLS_fuse sbox listedLmat _)).trans ?_
  decide +kernel
/-- R156: the constant's register is the first of the pair. -/
theorem test_fstep_overlap :
    exec (.fstep 0 1 0) (start 1 0x8899aabbccddeeff0011223344556677 0xfedcba98765432100123456789abcdef 0) =
      .next (((start 1 0x8899aabbccddeeff0011223344556677 0xfedcba98765432100123456789abcdef 0).setBlock 0
        (blockOfInt 0xae9ab72bf665dd1540f2eeb7289471a1)).setBlock 1 (blockOfInt 0x8899aabbccddeeff0011223344556677)) := by
  refine (exec_ready rfl rfl (by decide) (by decide)).trans ?_
  refine congrArg (fun x => Host.Outcome.next (State.setBlock (State.setBlock _ 0 x) 1 _)) ?_
  refine (congrArg (fun z => xorBlock z _) (applyLS_fuse sbox listedLmat _)).trans ?_
  decide +kernel

/-- R161: the source's encryption vector V6. -/
theorem test_enc :
    exec (.enc 2) (start 3 0 0 0x1122334455667700ffeeddccbbaa9988) =
      .next ((start 3 0 0 0x1122334455667700ffeeddccbbaa9988).setBlock 2 (blockOfInt 0x7f679d90bebc24305a468d42b9d4edcd)) := by
  refine runs_block rfl rfl (by decide) (by decide) rfl ?_
  have h : applyLS (start 3 0 0 0x1122334455667700ffeeddccbbaa9988).tables.tEnc =
      fun x => Vector.ofFn fun k : Pos => xorSum fun i => gfMul (sbox x[i]) listedLmat[k][i] :=
    funext fun x => applyLS_fuse sbox listedLmat x
  rw [h]
  decide +kernel
/-- R163: the source's decryption vector V7. -/
theorem test_dec :
    exec (.dec 2) (start 3 0 0 0x7f679d90bebc24305a468d42b9d4edcd) =
      .next ((start 3 0 0 0x7f679d90bebc24305a468d42b9d4edcd).setBlock 2 (blockOfInt 0x1122334455667700ffeeddccbbaa9988)) := by
  refine runs_block rfl rfl (by decide) (by decide) rfl ?_
  have h (x : Block) : transSInv (transLInv gfMul x) =
      forceBlock (blockOfBytes (iterateBytes listRInv 16 x.toList)) transSInv := by
    rw [forceBlock_eq, transLInv_eq_bytes]
  rw [start_mulAt, decrypt, foldr_eq_forced]
  simp only [h]
  decide +kernel
/-- R163, R174: `DEC` with tables and no key. -/
theorem test_dec_keyNotSet :
    exec (.dec 0) (start 1 0 0 0) = .next { start 1 0 0 0 with status := 0x05, cause := 4, finfo := 0x04000000 } := rfl

/-- R128: `INIT` from reset sets `TREADY` alone. -/
theorem test_init : ∃ t, exec .init State.reset = .next t ∧ t.status = 0x01 ∧ t.gr = State.reset.gr := ⟨_, rfl, rfl, rfl⟩
/-- R128: `INIT` on a keyed core keeps the round keys valid. -/
theorem test_init_keyed : ∃ t, exec .init (start 3 0 0 0) = .next t ∧ t.status = 0x03 ∧ t.rk = listedKeys :=
  ⟨_, rfl, rfl, rfl⟩
/-- R153: outer round 1 for the source's key. -/
theorem test_expand_group1 :
    expandGroup 1 (listedKeys[0], listedKeys[1]) = (listedKeys[2], listedKeys[3]) := by
  simp only [expandGroup, roundConst, feistel, directLS, foldl_eq_forced, transL_eq_bytes]
  decide +kernel

/-- R153: outer round 2 for the source's key. -/
theorem test_expand_group2 :
    expandGroup 2 (listedKeys[2], listedKeys[3]) = (listedKeys[4], listedKeys[5]) := by
  simp only [expandGroup, roundConst, feistel, directLS, foldl_eq_forced, transL_eq_bytes]
  decide +kernel

/-- R153: outer round 3 for the source's key. -/
theorem test_expand_group3 :
    expandGroup 3 (listedKeys[4], listedKeys[5]) = (listedKeys[6], listedKeys[7]) := by
  simp only [expandGroup, roundConst, feistel, directLS, foldl_eq_forced, transL_eq_bytes]
  decide +kernel

/-- R153: outer round 4 for the source's key. -/
theorem test_expand_group4 :
    expandGroup 4 (listedKeys[6], listedKeys[7]) = (listedKeys[8], listedKeys[9]) := by
  simp only [expandGroup, roundConst, feistel, directLS, foldl_eq_forced, transL_eq_bytes]
  decide +kernel

/-- R153: all ten round keys of the source's key; V4 is the third and V5 the tenth. -/
theorem test_keySchedule : keySchedule listedKeys[0] listedKeys[1] = listedKeys := by
  rw [keySchedule]
  simp only [test_expand_group1, test_expand_group2, test_expand_group3, test_expand_group4]
  decide +kernel

theorem effectOf_setkey_rk (ra rb : Reg) (s : State) :
    (effectOf (.setkey ra rb) s).rk = keySchedule (s.block ra) (s.block rb) := rfl

theorem start_key : blockOfInt 0x8899aabbccddeeff0011223344556677 = listedKeys[0] ∧
    blockOfInt 0xfedcba98765432100123456789abcdef = listedKeys[1] := by decide +kernel

/-- R154: `SETKEY` from reset with the source's key sets both flags and writes these ten keys. -/
theorem test_setkey :
    ∃ t, exec (.setkey 0 1) (start 0 0x8899aabbccddeeff0011223344556677 0xfedcba98765432100123456789abcdef 0) = .next t ∧
      t.status = 0x03 ∧ t.rk = listedKeys := by
  refine ⟨_, exec_ready rfl rfl (by decide) (by decide), rfl, ?_⟩
  rw [effectOf_setkey_rk, start_block0, start_block1, start_key.1, start_key.2, test_keySchedule]

/-! ### Faults, refusals and the command port: section 2.9 and program P5 -/

/-- R172: `L` before the tables exist. -/
theorem test_fault_incompleteTransform :
    step (presentWord 0x42000000 State.reset) =
      .next { State.reset with status := 0x04, cause := 2, finfo := 0x42000000 } := rfl
/-- R173, R177: an illegal word is found out before readiness is asked. -/
theorem test_fault_illegalCommand :
    step (presentWord 0x60000000 State.reset) =
      .next { State.reset with status := 0x04, cause := 3, finfo := 0x60000000 } := rfl
/-- R177: `TREADY` is asked before `KVALID`. -/
theorem test_fault_tables_before_key :
    step (presentWord 0x03000000 State.reset) =
      .next { State.reset with status := 0x04, cause := 2, finfo := 0x03000000 } := rfl
/-- R176: a faulted core refuses `INIT`. -/
theorem test_faulted_refuses :
    step (presentWord 0x01000000 { State.reset with status := 0x04, cause := 2, finfo := 0x42000000 }) =
      .next { State.reset with status := 0x04, cause := 2, finfo := 0x42000000 } := rfl
theorem test_withFetchWord :
    step (State.reset.withFetchWord 32 0x300000FF) = .next (State.reset.setGr 0xb6) := by
  refine (exec_ready (i := .pi 0xff) (s := State.reset) rfl rfl (by decide) (by decide)).trans ?_
  exact congrArg (fun v => Host.Outcome.next (State.setGr _ v)) (by decide +kernel)

/-! ### Witnesses for the hypotheses of the statements -/

/-- A core with the tables generated. -/
def tabState : State := { State.reset with status := 0x01, tables := generateTables }

/-- A core with the tables and the source's key. -/
def keyState : State :=
  { tabState with
    status := 0x03
    rk := keySchedule (blockOfInt 0x8899aabbccddeeff0011223344556677) (blockOfInt 0xfedcba98765432100123456789abcdef) }

/-- The core after the fault of program P5. -/
def faultState : State := { State.reset with status := 0x04, cause := 2, finfo := 0x42000000 }

/-- `EncodedCommandDecodesToItself`; the edges of the extra checks are in `test_rcon_bounds` and `test_getrk_bounds`. -/
theorem test_witness_wellFormed : (Instr.gette 15 0xff 0).wellFormed = true := rfl
/-- `DecodedCommandEncodesToItsWord`. -/
theorem test_witness_decodes : decode 0x62300A00 = .ok (.getrk 3 10) := by decide +kernel
/-- `LegalWordsAreThoseWithLegalFields`: words on both sides of it. -/
theorem test_witness_fieldsLegal : FieldsLegal (fieldsOf 0x2000FFFF) ∧ ¬ FieldsLegal (fieldsOf 0x60000021) := by
  simp [FieldsLegal, fieldsOf]
/-- `IllFormedOperandsAreIllegalCommands`. -/
theorem test_witness_illFormed : (Instr.rcon 0 33).wellFormed = false ∧ State.reset.faulted = false := by decide +kernel
/-- `StepRunsTheDecodedCommand`. -/
theorem test_witness_commandWaits :
    (presentWord 0x01000000 State.reset).inputs = .command 0x01000000 :: [] ∧ decode 0x01000000 = .ok .init :=
  ⟨rfl, by decide +kernel⟩
/-- `EachWordIsCheckedInOrder`, step 1. -/
theorem test_witness_check_faulted :
    (presentWord 0x01000000 faultState).inputs = .command 0x01000000 :: [] ∧
    (presentWord 0x01000000 faultState).faulted = true := ⟨rfl, by decide +kernel⟩
/-- `EachWordIsCheckedInOrder`, step 2. -/
theorem test_witness_check_illegal :
    (presentWord 0x60000021 tabState).inputs = .command 0x60000021 :: [] ∧
    (presentWord 0x60000021 tabState).faulted = false ∧ decode 0x60000021 = .error .extraCheck :=
  ⟨rfl, rfl, by decide +kernel⟩
/-- `EachWordIsCheckedInOrder`, step 3. -/
theorem test_witness_check_tables :
    (presentWord 0x03000000 State.reset).inputs = .command 0x03000000 :: [] ∧
    (presentWord 0x03000000 State.reset).faulted = false ∧ decode 0x03000000 = .ok (.enc 0) ∧
    needsTready (.enc 0) = true ∧ (presentWord 0x03000000 State.reset).tready = false :=
  ⟨rfl, rfl, by decide +kernel, rfl, rfl⟩
/-- `EachWordIsCheckedInOrder`, step 4. -/
theorem test_witness_check_key :
    (presentWord 0x03000000 tabState).inputs = .command 0x03000000 :: [] ∧
    (presentWord 0x03000000 tabState).faulted = false ∧ decode 0x03000000 = .ok (.enc 0) ∧
    needsKvalid (.enc 0) = true ∧ (presentWord 0x03000000 tabState).tready = true ∧
    (presentWord 0x03000000 tabState).kvalid = false :=
  ⟨rfl, rfl, by decide +kernel, rfl, rfl, rfl⟩
/-- `EachWordIsCheckedInOrder`, step 5. -/
theorem test_witness_check_executes :
    (presentWord 0x03000000 keyState).inputs = .command 0x03000000 :: [] ∧
    (presentWord 0x03000000 keyState).faulted = false ∧ decode 0x03000000 = .ok (.enc 0) ∧
    (needsTready (.enc 0) = true → (presentWord 0x03000000 keyState).tready = true) ∧
    (needsKvalid (.enc 0) = true → (presentWord 0x03000000 keyState).kvalid = true) :=
  ⟨rfl, rfl, by decide +kernel, fun _ => rfl, fun _ => rfl⟩
/-- `FaultEntryWritesThreeRegisters`, cause 2. -/
theorem test_witness_entry_incompleteTransform :
    (presentWord 0x42000000 State.reset).inputs = .command 0x42000000 :: [] ∧ State.reset.faulted = false ∧
    ∃ t, step (presentWord 0x42000000 State.reset) = .next t ∧ t.faulted = true ∧ t.cause = 2 :=
  ⟨rfl, rfl, _, rfl, rfl, rfl⟩
/-- `FaultEntryWritesThreeRegisters`, cause 3. -/
theorem test_witness_entry_illegalCommand :
    (presentWord 0x00000000 State.reset).inputs = .command 0x00000000 :: [] ∧ State.reset.faulted = false ∧
    ∃ t, step (presentWord 0x00000000 State.reset) = .next t ∧ t.faulted = true ∧ t.cause = 3 :=
  ⟨rfl, rfl, _, rfl, rfl, rfl⟩
/-- `FaultEntryWritesThreeRegisters`, cause 4. -/
theorem test_witness_entry_keyNotSet :
    (presentWord 0x62000100 tabState).inputs = .command 0x62000100 :: [] ∧ tabState.faulted = false ∧
    ∃ t, step (presentWord 0x62000100 tabState) = .next t ∧ t.faulted = true ∧ t.cause = 4 :=
  ⟨rfl, rfl, _, rfl, rfl, rfl⟩
/-- `FaultedCoreRefusesUntilReset`: a word, and a reset. -/
theorem test_witness_faulted :
    faultState.faulted = true ∧ (presentWord 0x01000000 faultState).inputs = .command 0x01000000 :: [] ∧
    ∀ d, { faultState with inputs := [.reset d] }.inputs = .reset d :: [] := ⟨rfl, rfl, fun _ => rfl⟩
/-- `FaultedRunChangesNothing`: two words. -/
theorem test_witness_faultedRun :
    faultState.faulted = true ∧
    { faultState with inputs := [.command 0x01000000, .command 0x00000000] }.inputs =
      [(0x01000000 : Word), 0x00000000].map HostMove.command ++ [] := ⟨rfl, rfl⟩
/-- `IdleCoreHoldsItsState`. -/
theorem test_witness_idle : State.reset.inputs = [] := rfl
/-- `ResetMoveLeavesTheResetState`. -/
theorem test_witness_resetMove (d : Draw) : { faultState with inputs := [.reset d] }.inputs = .reset d :: [] := rfl
/-- `StatusStaysLegal`: fault entry on a keyed core, which reaches 0x07. -/
theorem test_witness_statusLegal :
    StatusLegal (presentWord 0xFFFFFFFF keyState) ∧
    ∃ t, step (presentWord 0xFFFFFFFF keyState) = .next t ∧ t.status = 0x07 := by
  refine ⟨?_, _, rfl, rfl⟩
  unfold StatusLegal; decide +kernel
/-- `ReadyTablesStayTheConstants`: a command on ready tables, and `INIT` on none. -/
theorem test_witness_tablesHold :
    (TablesHold (presentWord 0x12000000 tabState) ∧ tabState.tready = true ∧
      ∃ t, step (presentWord 0x12000000 tabState) = .next t) ∧
    (TablesHold (presentWord 0x01000000 State.reset) ∧ ∃ t, step (presentWord 0x01000000 State.reset) = .next t) :=
  ⟨⟨fun _ => rfl, rfl, _, rfl⟩, fun h => absurd h (by decide), _, rfl⟩
/-- `ValidRoundKeysStayTheExpansion`: a command on a keyed core, and `SETKEY` on a core without a key. -/
theorem test_witness_keysHold :
    (KeysHold (presentWord 0x12000000 keyState) ∧ keyState.kvalid = true ∧
      ∃ t, step (presentWord 0x12000000 keyState) = .next t) ∧
    (KeysHold (presentWord 0x02010000 State.reset) ∧ ∃ t, step (presentWord 0x02010000 State.reset) = .next t) :=
  ⟨⟨fun _ => rfl, rfl, _, rfl⟩, fun h => absurd h (by decide), _, rfl⟩
/-- `FaultRecordStaysTrue`: before the first fault, and after it. -/
theorem test_witness_faultRecord :
    (FaultRecordHolds (presentWord 0x42000000 State.reset) ∧
      ∃ t, step (presentWord 0x42000000 State.reset) = .next t) ∧
    (FaultRecordHolds (presentWord 0x01000000 faultState) ∧ ∃ t, step (presentWord 0x01000000 faultState) = .next t) := by
  refine ⟨⟨⟨fun _ => ⟨rfl, rfl⟩, fun h => absurd h (by decide)⟩, _, rfl⟩,
    ⟨fun h => absurd h (by decide), fun _ => .inr (.inl ⟨rfl, rfl, .l 0 0, ?_, rfl⟩)⟩, _, rfl⟩
  decide +kernel
/-- `FlagsAreSetByTheirCommandsAndClearedByReset`: `INIT` from reset. -/
theorem test_witness_flags :
    (∃ t, step (presentWord 0x01000000 State.reset) = .next t ∧ t.tready ≠ State.reset.tready) ∧
    ∀ d rest, (presentWord 0x01000000 State.reset).inputs ≠ .reset d :: rest :=
  ⟨⟨_, rfl, by decide⟩, (by intro d rest h; injection h with h _; cases h)⟩
/-- `FlagsAreSetByTheirCommandsAndClearedByReset`: `SETKEY` on ready tables. -/
theorem test_witness_flags_key :
    (∃ t, step (presentWord 0x02010000 tabState) = .next t ∧ t.kvalid ≠ tabState.kvalid) ∧
    ∀ d rest, (presentWord 0x02010000 tabState).inputs ≠ .reset d :: rest :=
  ⟨⟨_, rfl, by decide⟩, (by intro d rest h; injection h with h _; cases h)⟩
/-- `FlagsAreSetByTheirCommandsAndClearedByReset`: fault entry from reset. -/
theorem test_witness_flags_fault :
    (∃ t, step (presentWord 0x42000000 State.reset) = .next t ∧ t.faulted ≠ State.reset.faulted) ∧
    ∀ d rest, (presentWord 0x42000000 State.reset).inputs ≠ .reset d :: rest :=
  ⟨⟨_, rfl, by decide⟩, (by intro d rest h; injection h with h _; cases h)⟩
/-- `OnlyLifecycleCommandsWriteKeysAndTables` and `CommandsWriteOnlyTheirDestinations`: an effect, and a fault entry. -/
theorem test_witness_exec :
    (∃ t, exec (.setkey 0 1) State.reset = .next t ∧ t.faulted = State.reset.faulted) ∧
    (∃ t, exec (.l 0 0) State.reset = .next t ∧ t.faulted ≠ State.reset.faulted) ∧ (3 : Reg) ∉ writtenBlocks (.fstep 0 1 2) ∧
    writesGr (.fstep 0 1 2) = false :=
  ⟨⟨_, rfl, rfl⟩, ⟨_, rfl, by decide⟩, by decide, rfl⟩
/-- `CommandsWriteOnlyTheirDestinations`: a command that is neither `INIT` nor `SETKEY`, and `SETKEY` on ready tables. -/
theorem test_witness_exec_keeps :
    (Instr.s 0 1 ≠ .init ∧ (∀ ra rb, Instr.s 0 1 ≠ .setkey ra rb) ∧
      ∃ t, exec (.s 0 1) keyState = .next t ∧ t.faulted = keyState.faulted) ∧
    (tabState.tready = true ∧ ∃ t, exec (.setkey 0 1) tabState = .next t) :=
  ⟨⟨(by intro h; cases h), (by intro ra rb h; cases h), _, rfl, rfl⟩, rfl, _, rfl⟩
/-- `BlockRegistersShowOnlyThroughGetb`: `S` on two cores that differ in their registers. -/
theorem test_witness_blocksHidden :
    (∀ rs idx, Instr.s 0 1 ≠ .getb rs idx) ∧ (∃ t, exec (.s 0 1) State.reset = .next t) ∧
    ∃ t, exec (.s 0 1) { State.reset with blocks := Vector.replicate 4 (blockOfInt 1) } = .next t :=
  ⟨(by intro rs idx h; cases h), ⟨_, rfl⟩, _, rfl⟩
/-- `RoundKeysShowOnlyThroughTheirReaders`: `SETKEY` on two cores that differ in their round keys. -/
theorem test_witness_keysHidden :
    (∀ rd, Instr.setkey 0 1 ≠ .enc rd) ∧ (∀ rd, Instr.setkey 0 1 ≠ .dec rd) ∧ (∀ rd idx, Instr.setkey 0 1 ≠ .getrk rd idx) ∧
    (∃ t, exec (.setkey 0 1) keyState = .next t) ∧
    ∃ t, exec (.setkey 0 1) { keyState with rk := Vector.replicate 10 (blockOfInt 1) } = .next t :=
  ⟨(by intro rd h; cases h), (by intro rd h; cases h), (by intro rd idx h; cases h), ⟨_, rfl⟩, _, rfl⟩
/-- `ReadsHaveNoSideEffectAndRepeatIdempotently`: a byte-result command, `GETRK`, `INIT`, `SETKEY`. -/
theorem test_witness_reads :
    (∃ t, exec (.getb 0 15) keyState = .next t ∧ t.faulted = false ∧ writesGr (.getb 0 15) = true) ∧
    (∃ t, exec (.getrk 0 10) keyState = .next t ∧ t.faulted = false) ∧ (∃ t, exec .init keyState = .next t) ∧
    (∃ t, exec (.setkey 0 1) keyState = .next t) ∧ keyState.faulted = false :=
  ⟨⟨_, rfl, rfl, rfl⟩, ⟨_, rfl, rfl⟩, ⟨_, rfl⟩, ⟨_, rfl⟩, rfl⟩
/-- `XorAddsBytewise`, `SetbWritesOneByte`, `GetbReadsOneByte`, `SboxCommandsReadTheTables`,
`SubstitutionCommandsActBytewise`, `InitGeneratesTheTables`, `SetkeyRunsThe32FeistelSteps`,
`PseudoInstructionsClearAndMove`. -/
theorem test_witness_notFaulted : State.reset.faulted = false ∧ (0 : Reg) ≠ 3 ∧ (14 : Pos) ≠ 15 := by decide +kernel
/-- `SetkeyExpandsTheKey`, on a core without tables and on one with them. -/
theorem test_witness_setkey :
    (TablesHold State.reset ∧ State.reset.faulted = false) ∧ (TablesHold tabState ∧ tabState.faulted = false) :=
  ⟨⟨fun h => absurd h (by decide), rfl⟩, fun _ => rfl, rfl⟩
/-- The statements about the table commands that ask for `TablesHold` and `TablesReady`. -/
theorem test_witness_tablesReady : TablesHold tabState ∧ TablesReady tabState := ⟨fun _ => rfl, rfl, rfl⟩
/-- `StepCommandsShiftAndFeedBack`, `EncRunsTheTenRounds`, `GeneratedMatricesAreTheListedOnes`,
`SetkeyRunsThe32FeistelSteps`: the last index of each. -/
theorem test_witness_lastIndex : 14 < 15 ∧ 8 < 9 ∧ 15 < 16 ∧ 31 < 32 ∧ 4 ≤ 4 := by decide
/-- `RconWritesTheRoundConstant`, at both ends. -/
theorem test_witness_rcon :
    TablesHold tabState ∧ TablesReady tabState ∧ 1 ≤ (1 : Byte).toNat ∧ (1 : Byte).toNat ≤ 32 ∧ 1 ≤ (32 : Byte).toNat ∧
    (32 : Byte).toNat ≤ 32 := ⟨fun _ => rfl, ⟨rfl, rfl⟩, by decide, by decide, by decide, by decide⟩
/-- `FstepRunsOneFeistelStep`, with the constant's register apart and in the pair. -/
theorem test_witness_fstep : TablesHold tabState ∧ TablesReady tabState ∧ (0 : Reg) ≠ 1 := ⟨fun _ => rfl, ⟨rfl, rfl⟩, by decide⟩
/-- `GetrkCopiesARoundKey`, at both ends. -/
theorem test_witness_getrk :
    Keyed keyState ∧ 1 ≤ (1 : Pos).val ∧ (1 : Pos).val ≤ 10 ∧ 1 ≤ (10 : Pos).val ∧ (10 : Pos).val ≤ 10 :=
  ⟨⟨rfl, rfl, rfl⟩, by decide, by decide, by decide, by decide⟩
/-- `EncRunsTheTenRounds`, `DecGivesTheBlockThatEncryptsToItsOperand`, `DecUndoesEncAndEncUndoesDec`. -/
theorem test_witness_keyed : TablesHold keyState ∧ Keyed keyState := ⟨fun _ => rfl, rfl, rfl, rfl⟩
/-- `FeistelStepIsInvertible`. -/
theorem test_witness_feistel (k a b : Block) :
    feistel (directLS gfMul) k a b = (xorBlock (directLS gfMul (xorBlock a k)) b, a) := by simp only [feistel]
/-- `FieldMultiplicationLaws`: a nonzero byte, the last byte below 0x80 and the first at it, the last power below 255. -/
theorem test_witness_field :
    (1 : Byte) ≠ 0 ∧ (0x7f : Byte).toNat < 0x80 ∧ 0x80 ≤ (0x80 : Byte).toNat ∧ 0 < 254 ∧ 254 < 255 := by decide
/-- `HexTextRoundTrips`: `test_parseHex` is a text that parses. `ParseHexAcceptsExactlyTheTextForm`: one text of the form, and
one that is not. -/
theorem test_witness_parseHex :
    ((List.replicate 32 '0').length = 32 ∧ ∀ c ∈ List.replicate 32 '0', c ∈ "0123456789abcdef".toList) ∧
    ¬ ((List.replicate 32 'A').length = 32 ∧ ∀ c ∈ List.replicate 32 'A', c ∈ "0123456789abcdef".toList) := by simp

end Sys2Proof.Tests
end

section
/-! SUPPORT. The laws that the statements about the state, the flags and the frames share: what a word that decodes is
the encoding of, what each effect leaves unchanged, and what a step on a presented word can do. -/

namespace Sys2Proof.Machine

/-! ### The command that a legal word names -/

/-- A mask of ones asks for the whole field. -/
theorem and_byteMask (x : BitVec 8) : x &&& 255#8 = x := x.and_allOnes

/-- A mask of ones asks for the whole field. -/
theorem and_halfMask (x : BitVec 4) : x &&& 15#4 = x := x.and_allOnes

/-- R54, R55: the mask of a row leaves no bit of a word free, so the fields of the command that the row builds are those
of the word. -/
theorem fieldsOfInstr_build {row : Row} (hr : row ∈ opcodeMap) {w : Word} (h : w &&& row.mask = row.pattern) :
    fieldsOfInstr (row.build (fieldsOf w)) = fieldsOf w := by
  rw [and_eq_iff] at h
  revert h
  generalize fieldsOf w = f
  obtain ⟨op, rd, rs, rt, idx, imm8⟩ := f
  -- Row by row, a field is either masked whole and equal to the pattern's, or read back as an operand.
  revert row
  simp +contextual [opcodeMap, fieldsOf, fieldsOfInstr, and_byteMask, and_halfMask, regField_regOf]

/-- R60: a word decodes by a row of the opcode map whose mask it passes, to a command that passes the extra checks. -/
theorem exists_row_of_decode {w : Word} {i : Instr} (h : decode w = .ok i) :
    ∃ row ∈ opcodeMap, w &&& row.mask = row.pattern ∧ row.build (fieldsOf w) = i ∧ i.wellFormed = true := by
  unfold decode at h
  split at h
  · cases h
  · next row hrow =>
    split at h
    · next hm =>
      split at h
      · next hw =>
        injection h with h
        subst h
        exact ⟨row, List.mem_of_find?_eq_some hrow, hm, rfl, hw⟩
      · cases h
    · cases h

theorem wellFormed_of_decode {w : Word} {i : Instr} (h : decode w = .ok i) : i.wellFormed = true := by
  obtain ⟨-, -, -, -, hw⟩ := exists_row_of_decode h
  exact hw

/-- R51: a legal word is the encoding of the command it names. -/
theorem encode_of_decode {w : Word} {i : Instr} (h : decode w = .ok i) : encode i = w := by
  obtain ⟨row, hr, hm, rfl, -⟩ := exists_row_of_decode h
  rw [encode, fieldsOfInstr_build hr hm, wordOf_fieldsOf]

/-! ### The lifecycle commands -/

/-- `INIT` and `SETKEY` are the commands with a column of their own in R27. -/
theorem lifecycle_or_other (i : Instr) :
    i = .init ∨ (∃ ra rb, i = .setkey ra rb) ∨ (i ≠ .init ∧ ∀ ra rb, i ≠ .setkey ra rb) := by
  cases i <;> simp

@[simp] theorem init_tables (s : State) : (effectOf .init s).tables = generateTables := rfl
@[simp] theorem init_rk (s : State) : (effectOf .init s).rk = s.rk := rfl
@[simp] theorem init_status (s : State) : (effectOf .init s).status = setTready s.status := rfl
@[simp] theorem init_tready (s : State) : (effectOf .init s).tready = true := by simp [State.tready]
@[simp] theorem init_kvalid (s : State) : (effectOf .init s).kvalid = s.kvalid := by simp [State.kvalid]

@[simp] theorem setkey_tables (ra rb : Reg) (s : State) :
    (effectOf (.setkey ra rb) s).tables = if s.tready then s.tables else generateTables := rfl
@[simp] theorem setkey_rk (ra rb : Reg) (s : State) :
    (effectOf (.setkey ra rb) s).rk = keySchedule (s.block ra) (s.block rb) := rfl
@[simp] theorem setkey_status (ra rb : Reg) (s : State) :
    (effectOf (.setkey ra rb) s).status = setKvalid (setTready s.status) := rfl
@[simp] theorem setkey_tready (ra rb : Reg) (s : State) : (effectOf (.setkey ra rb) s).tready = true := by
  simp [State.tready]
@[simp] theorem setkey_kvalid (ra rb : Reg) (s : State) : (effectOf (.setkey ra rb) s).kvalid = true := by
  simp [State.kvalid]

/-- R152: the expansion keeps the two halves of its key as the first two round keys. -/
theorem keySchedule_keeps_key (k1 k2 : Block) : (keySchedule k1 k2)[0] = k1 ∧ (keySchedule k1 k2)[1] = k2 :=
  ⟨rfl, rfl⟩

/-! ### What an effect leaves unchanged (R27) -/

/-- R14, R27: no command but `INIT` and `SETKEY` writes a table or `STATUS`. -/
theorem effectOf_tables_status {i : Instr} (hi : i ≠ .init) (hk : ∀ ra rb, i ≠ .setkey ra rb) (s : State) :
    (effectOf i s).tables = s.tables ∧ (effectOf i s).status = s.status := by
  cases i with
  | init => exact absurd rfl hi
  | setkey ra rb => exact absurd rfl (hk ra rb)
  | _ => exact ⟨rfl, rfl⟩

theorem effectOf_tready_of_other {i : Instr} (hi : i ≠ .init) (hk : ∀ ra rb, i ≠ .setkey ra rb) (s : State) :
    (effectOf i s).tready = s.tready := by
  rw [State.tready, (effectOf_tables_status hi hk s).2, State.tready]

/-- R17, R27: no command but `SETKEY` writes `RK`. -/
theorem effectOf_rk {i : Instr} (hk : ∀ ra rb, i ≠ .setkey ra rb) (s : State) : (effectOf i s).rk = s.rk := by
  cases i with
  | setkey ra rb => exact absurd rfl (hk ra rb)
  | _ => rfl

/-- R14, R27: no command but `SETKEY` writes `KVALID`. -/
theorem effectOf_kvalid {i : Instr} (hk : ∀ ra rb, i ≠ .setkey ra rb) (s : State) :
    (effectOf i s).kvalid = s.kvalid := by
  cases i with
  | init => exact init_kvalid s
  | setkey ra rb => exact absurd rfl (hk ra rb)
  | _ => rfl

/-- R14: the setters of `TREADY`. -/
theorem lifecycle_of_tready_ne {i : Instr} {s : State} (h : (effectOf i s).tready ≠ s.tready) :
    i = .init ∨ ∃ ra rb, i = .setkey ra rb := by
  rcases lifecycle_or_other i with hi | hi | ⟨hi, hk⟩
  · exact .inl hi
  · exact .inr hi
  · exact absurd (effectOf_tready_of_other hi hk s) h

/-- R14: the setter of `KVALID`. -/
theorem setkey_of_kvalid_ne {i : Instr} {s : State} (h : (effectOf i s).kvalid ≠ s.kvalid) :
    ∃ ra rb, i = .setkey ra rb := by
  by_contra hk
  exact h (effectOf_kvalid (by simpa using hk) s)

/-- R14: no effect clears `TREADY`. -/
theorem effectOf_keeps_tready (i : Instr) {s : State} (h : s.tready = true) : (effectOf i s).tready = true := by
  rcases lifecycle_or_other i with rfl | ⟨ra, rb, rfl⟩ | ⟨hi, hk⟩
  · exact init_tready s
  · exact setkey_tready ra rb s
  · rw [effectOf_tready_of_other hi hk, h]

/-- R14: no effect clears `KVALID`. -/
theorem effectOf_keeps_kvalid (i : Instr) {s : State} (h : s.kvalid = true) : (effectOf i s).kvalid = true := by
  by_cases hk : ∃ ra rb, i = .setkey ra rb
  · obtain ⟨ra, rb, rfl⟩ := hk
    exact setkey_kvalid ra rb s
  · rw [effectOf_kvalid (by simpa using hk), h]

@[simp] theorem reservedBits_setTready (b : Byte) : reservedBits (setTready b) = reservedBits b := by
  simp [reservedBits, setTready, BitVec.extractLsb'_or]
@[simp] theorem reservedBits_setKvalid (b : Byte) : reservedBits (setKvalid b) = reservedBits b := by
  simp [reservedBits, setKvalid, BitVec.extractLsb'_or]
@[simp] theorem reservedBits_setFault (b : Byte) : reservedBits (setFault b) = reservedBits b := by
  simp [reservedBits, setFault, BitVec.extractLsb'_or]

/-- R14: no effect writes bits 7:3 of `STATUS`. -/
@[simp] theorem effectOf_reservedBits (i : Instr) (s : State) :
    reservedBits (effectOf i s).status = reservedBits s.status := by
  rcases lifecycle_or_other i with rfl | ⟨ra, rb, rfl⟩ | ⟨hi, hk⟩
  · simp
  · simp
  · rw [(effectOf_tables_status hi hk s).2]

/-- R27: an effect writes no block register but its destinations. -/
theorem effectOf_block {i : Instr} {r : Reg} (h : r ∉ writtenBlocks i) (s : State) :
    (effectOf i s).block r = s.block r := by
  cases i with
  | fstep ra rb rk =>
    obtain ⟨ha, hb⟩ : r ≠ ra ∧ r ≠ rb := by simpa [writtenBlocks] using h
    rw [effectOf, block_setBlock_other _ _ hb, block_setBlock_other _ _ ha]
  | init | setkey | getb | gfmul | pi | piinv | getl | getli | gette | gettd | getti => rfl
  | _ => exact block_setBlock_other _ _ (by simpa [writtenBlocks] using h)

/-- R12, R27: only the byte-result commands write `GR`. -/
theorem effectOf_gr {i : Instr} (h : writesGr i = false) (s : State) : (effectOf i s).gr = s.gr := by
  cases i with
  | getb | gfmul | pi | piinv | getl | getli | gette | gettd | getti => cases h
  | _ => rfl

/-! ### What a step on a presented word can do -/

/-- R177: a command that needs `KVALID` needs `TREADY`. -/
theorem needsTready_of_needsKvalid {i : Instr} (h : needsKvalid i = true) : needsTready i = true := by
  cases i with
  | enc | dec | getrk => rfl
  | _ => cases h

/-- R172 to R174: when the word `w`, presented to a core in the state `s`, raises the fault `c`. -/
def FaultReason (w : Word) (s : State) : Cause → Prop
  | .illegalCommand => ∃ e, decode w = .error e
  | .incompleteTransform => s.tready = false ∧ ∃ i, decode w = .ok i ∧ needsTready i = true
  | .keyNotSet => s.tready = true ∧ s.kvalid = false ∧ ∃ i, decode w = .ok i ∧ needsKvalid i = true

/-- R175 to R177: the word `w` takes the state `s`, from which it has been taken, to `t`. -/
inductive WordOutcome (w : Word) (s t : State) : Prop
  /-- R176. -/
  | refused (hf : s.faulted = true) (ht : t = s)
  /-- R175. -/
  | fault (hf : s.faulted = false) (c : Cause) (hc : FaultReason w s c) (ht : t = enterFault c w s)
  /-- R177 step 5. -/
  | effect (hf : s.faulted = false) (i : Instr) (hd : decode w = .ok i) (ht : t = effectOf i s)

theorem wordOutcome_of_exec {w : Word} {i : Instr} {s t : State} (hd : decode w = .ok i) (h : exec i s = .next t) :
    WordOutcome w s t := by
  have hw := wellFormed_of_decode hd
  rw [exec_eq_issue] at h
  rcases issue_cases h with ⟨hf, rfl⟩ | ⟨-, hn, -⟩ | ⟨hf, -, hn, ht, rfl⟩ | ⟨hf, -, ht, hn, hk, rfl⟩ |
    ⟨hf, -, -, -, rfl⟩
  · exact .refused hf rfl
  · rw [hw] at hn; cases hn
  · rw [needsTables_readinessOf] at hn
    rw [encode_of_decode hd]
    exact .fault hf .incompleteTransform ⟨ht, i, hd, hn⟩ rfl
  · rw [needsKey_readinessOf] at hn
    rw [needsTables_readinessOf] at ht
    rw [encode_of_decode hd]
    exact .fault hf .keyNotSet ⟨ht (needsTready_of_needsKvalid hn), hk, i, hd, hn⟩ rfl
  · exact .effect hf i hd rfl

theorem wordOutcome_of_issueIllegal {w : Word} {e : Illegal} {s t : State} (hd : decode w = .error e)
    (h : issueIllegal w s = .next t) : WordOutcome w s t := by
  rcases issueIllegal_cases h with ⟨hf, rfl⟩ | ⟨hf, rfl⟩
  · exact .refused hf rfl
  · exact .fault hf .illegalCommand ⟨e, hd⟩ rfl

/-- R201: a step is idle, a reset, or what the word it takes does. -/
theorem step_moves {s t : State} (h : step s = .next t) :
    (s.inputs = [] ∧ t = s) ∨
    (∃ d rest, s.inputs = .reset d :: rest ∧ t = applyReset d { s with inputs := rest }) ∨
    ∃ w rest, s.inputs = .command w :: rest ∧ WordOutcome w { s with inputs := rest } t := by
  rcases step_cases h with hi | hr | ⟨w, rest, i, hs, hd, he⟩ | ⟨w, rest, e, hs, hd, he⟩
  · exact .inl hi
  · exact .inr (.inl hr)
  · exact .inr (.inr ⟨w, rest, hs, wordOutcome_of_exec hd he⟩)
  · exact .inr (.inr ⟨w, rest, hs, wordOutcome_of_issueIllegal hd he⟩)

theorem step_command {s t : State} {w : Word} {rest : List HostMove} (hs : s.inputs = .command w :: rest)
    (h : step s = .next t) : WordOutcome w { s with inputs := rest } t := by
  rcases step_moves h with ⟨hi, -⟩ | ⟨d, rest', hi, -⟩ | ⟨w', rest', hi, ho⟩
  · rw [hs] at hi; cases hi
  · rw [hs] at hi; cases hi
  · rw [hs] at hi; cases hi; exact ho

theorem causeCode_cases (c : Cause) : causeCode c = 2 ∨ causeCode c = 3 ∨ causeCode c = 4 := by
  cases c with
  | incompleteTransform => exact .inl rfl
  | illegalCommand => exact .inr (.inl rfl)
  | keyNotSet => exact .inr (.inr rfl)

/-- R175: a step that makes a core faulted has taken a word and is a fault entry on it. -/
theorem fault_entry {w : Word} {s t : State} (h : WordOutcome w s t) (hs : s.faulted = false) (ht : t.faulted = true) :
    ∃ c, FaultReason w s c ∧ t = enterFault c w s := by
  cases h with
  | refused hf => rw [hs] at hf; cases hf
  | fault _ c hc he => exact ⟨c, hc, he⟩
  | effect _ i _ he =>
    obtain ⟨-, -, hf, -⟩ := effectOf_frame i s
    rw [he, hf, hs] at ht
    cases ht

/-! ### Invariants -/

/-- A predicate that does not read the host's list, holds after every reset, and survives fault entry and every effect is
kept by every step. -/
theorem step_preserves {P : State → Prop} (inputs : ∀ s ms, P s → P { s with inputs := ms })
    (reset : ∀ d s, P (applyReset d s))
    (fault : ∀ c w s, s.faulted = false → FaultReason w s c → P s → P (enterFault c w s))
    (effect : ∀ i s, s.faulted = false → P s → P (effectOf i s)) {s t : State} (hs : P s) (h : step s = .next t) :
    P t := by
  rcases step_moves h with ⟨-, rfl⟩ | ⟨d, rest, -, rfl⟩ | ⟨w, rest, -, ho⟩
  · exact hs
  · exact reset d _
  · have hu := inputs s rest hs
    rcases ho with ⟨-, rfl⟩ | ⟨hf, c, hc, rfl⟩ | ⟨hf, i, -, rfl⟩
    · exact hu
    · exact fault c w _ hf hc hu
    · exact effect i _ hf hu

/-- R14, R22: the six values of `STATUS` are those with bits 7:3 zero in which `KVALID` implies `TREADY`. -/
theorem statusLegal_iff (s : State) :
    StatusLegal s ↔ reservedBits s.status = 0 ∧ (s.kvalid = true → s.tready = true) := by
  unfold StatusLegal State.kvalid State.tready
  generalize s.status = b
  revert b
  decide +kernel

theorem statusLegal_applyReset (d : Draw) (s : State) : StatusLegal (applyReset d s) := by
  simp [statusLegal_iff, reservedBits]

theorem tablesHold_applyReset (d : Draw) (s : State) : TablesHold (applyReset d s) := by
  simp [TablesHold]

theorem keysHold_applyReset (d : Draw) (s : State) : KeysHold (applyReset d s) := by
  simp [KeysHold]

theorem faultRecordHolds_applyReset (d : Draw) (s : State) : FaultRecordHolds (applyReset d s) := by
  simp [FaultRecordHolds]

theorem statusLegal_effectOf (i : Instr) {s : State} (h : StatusLegal s) : StatusLegal (effectOf i s) := by
  rw [statusLegal_iff] at h ⊢
  obtain ⟨hb, hkt⟩ := h
  refine ⟨by rw [effectOf_reservedBits, hb], fun hk => ?_⟩
  rcases lifecycle_or_other i with rfl | ⟨ra, rb, rfl⟩ | ⟨hi, hn⟩
  · exact init_tready s
  · exact setkey_tready ra rb s
  · rw [effectOf_kvalid hn] at hk
    exact effectOf_keeps_tready i (hkt hk)

theorem tablesHold_effectOf (i : Instr) {s : State} (h : TablesHold s) : TablesHold (effectOf i s) := by
  intro ht
  rcases lifecycle_or_other i with rfl | ⟨ra, rb, rfl⟩ | ⟨hi, hk⟩
  · exact init_tables s
  · rw [setkey_tables]
    split
    · next hs => exact h hs
    · rfl
  · rw [effectOf_tready_of_other hi hk] at ht
    rw [(effectOf_tables_status hi hk s).1, h ht]

theorem keysHold_effectOf (i : Instr) {s : State} (h : KeysHold s) : KeysHold (effectOf i s) := by
  intro hv
  by_cases hk : ∃ ra rb, i = .setkey ra rb
  · obtain ⟨ra, rb, rfl⟩ := hk
    obtain ⟨h1, h2⟩ := keySchedule_keeps_key (s.block ra) (s.block rb)
    rw [setkey_rk, h1, h2]
  · have hn : ∀ ra rb, i ≠ .setkey ra rb := by simpa using hk
    rw [effectOf_kvalid hn] at hv
    rw [effectOf_rk hn]
    exact h hv

/-- R175: what fault entry records is true of the fault it enters. -/
theorem faultRecordHolds_enterFault {c : Cause} {w : Word} {s : State} (hc : FaultReason w s c) :
    FaultRecordHolds (enterFault c w s) := by
  refine ⟨by simp, fun _ => ?_⟩
  cases c with
  | illegalCommand => exact .inl ⟨rfl, hc⟩
  | incompleteTransform =>
    obtain ⟨ht, hi⟩ := hc
    exact .inr (.inl ⟨rfl, by simpa using ht, hi⟩)
  | keyNotSet =>
    obtain ⟨ht, hk, hi⟩ := hc
    exact .inr (.inr ⟨rfl, by simpa using ht, by simpa using hk, hi⟩)

theorem faultRecordHolds_effectOf (i : Instr) {s : State} (hf : s.faulted = false) (h : FaultRecordHolds s) :
    FaultRecordHolds (effectOf i s) := by
  obtain ⟨hc, hi, hfi, -⟩ := effectOf_frame i s
  refine ⟨fun _ => ?_, fun ht => ?_⟩
  · rw [hc, hi]
    exact h.1 hf
  · rw [hfi, hf] at ht
    cases ht

/-- The state right after reset is one that a reset move leaves: what it draws is what the state holds. -/
theorem reset_eq_applyReset :
    State.reset =
      applyReset ⟨State.reset.blocks, State.reset.gr, State.reset.rk, State.reset.tables⟩ State.reset := rfl

/-! ### Two runs of one command -/

/-- Noninterference of the order of checks: when two states hold the same `STATUS`, a relation that holds between them,
between their fault entries and between the effects holds between the answers. -/
theorem exec_related {R : State → State → Prop} {i : Instr} {s s' t t' : State} (hst : s'.status = s.status)
    (same : R s s') (fault : ∀ c w, R (enterFault c w s) (enterFault c w s'))
    (effect : R (effectOf i s) (effectOf i s')) (h : exec i s = .next t) (h' : exec i s' = .next t') : R t t' := by
  have hf : s'.faulted = s.faulted := by rw [State.faulted, hst, State.faulted]
  have ht : s'.tready = s.tready := by rw [State.tready, hst, State.tready]
  have hk : s'.kvalid = s.kvalid := by rw [State.kvalid, hst, State.kvalid]
  rw [exec_eq_issue] at h h'
  rcases issue_cases h with ⟨h1, rfl⟩ | ⟨h1, hw, rfl⟩ | ⟨h1, hw, hn, h2, rfl⟩ | ⟨h1, hw, h2, hn, h3, rfl⟩ |
    ⟨h1, hw, h2, h3, rfl⟩
  · rw [issue_faulted (hf.trans h1)] at h'
    cases h'; exact same
  · rw [issue_illFormed (hf.trans h1) hw] at h'
    cases h'; exact fault _ _
  · rw [issue_noTables (hf.trans h1) hw hn (ht.trans h2)] at h'
    cases h'; exact fault _ _
  · have hnt : needsTables (readinessOf i) = true := by
      rw [needsTables_readinessOf]
      exact needsTready_of_needsKvalid (by rwa [needsKey_readinessOf] at hn)
    rw [issue_noKey (hf.trans h1) hw (ht.trans (h2 hnt)) hn (hk.trans h3)] at h'
    cases h'; exact fault _ _
  · rw [issue_ready (hf.trans h1) hw (fun hn => ht.trans (h2 hn)) (fun hn => hk.trans (h3 hn))] at h'
    cases h'; exact effect

/-- R26: no effect but that of `GETB` moves a block register to `GR`. -/
theorem effectOf_gr_withBlocks {i : Instr} (hi : ∀ rs idx, i ≠ .getb rs idx) (s : State) (b : Vector Block 4) :
    (effectOf i { s with blocks := b }).gr = (effectOf i s).gr := by
  by_cases hg : writesGr i = false
  · rw [effectOf_gr hg, effectOf_gr hg]
  · cases i with
    | getb rs idx => exact absurd rfl (hi rs idx)
    | gfmul | pi | piinv | getl | getli | gette | gettd | getti => rfl
    | _ => exact absurd rfl hg

/-- R14: what an effect leaves in `STATUS` does not depend on the block registers. -/
theorem effectOf_status_withBlocks (i : Instr) (s : State) (b : Vector Block 4) :
    (effectOf i { s with blocks := b }).status = (effectOf i s).status := by
  rcases lifecycle_or_other i with rfl | ⟨ra, rb, rfl⟩ | ⟨hi, hk⟩
  · simp
  · simp
  · rw [(effectOf_tables_status hi hk _).2, (effectOf_tables_status hi hk s).2]

/-- R26: the outputs after an effect other than that of `GETB` do not depend on the block registers. -/
theorem sample_effectOf_withBlocks {i : Instr} (hi : ∀ rs idx, i ≠ .getb rs idx) (s : State) (b : Vector Block 4) :
    sample (effectOf i { s with blocks := b }) = sample (effectOf i s) := by
  obtain ⟨hc, hf, -, -⟩ := effectOf_frame i s
  obtain ⟨hc', hf', -, -⟩ := effectOf_frame i { s with blocks := b }
  rw [sample, sample, effectOf_gr_withBlocks hi, effectOf_status_withBlocks, hc, hf, hc', hf']

/-- R17: an effect other than those of `ENC`, `DEC` and `GETRK` does not read `RK`. -/
theorem effectOf_withRk {i : Instr} (he : ∀ rd, i ≠ .enc rd) (hd : ∀ rd, i ≠ .dec rd) (hg : ∀ rd idx, i ≠ .getrk rd idx)
    (s : State) (k : Vector Block Config.nrk) :
    effectOf i { s with rk := k } = { effectOf i s with rk := (effectOf i { s with rk := k }).rk } := by
  cases i with
  | enc rd => exact absurd rfl (he rd)
  | dec rd => exact absurd rfl (hd rd)
  | getrk rd idx => exact absurd rfl (hg rd idx)
  | _ => rfl

/-! ### The frame of an executed command -/

/-- R17, R27: what `exec` leaves unchanged of `RK` and `KVALID`, faulting forms included. -/
theorem exec_keeps_keys {i : Instr} {s t : State} (h : exec i s = .next t) (hk : ∀ ra rb, i ≠ .setkey ra rb) :
    t.rk = s.rk ∧ t.kvalid = s.kvalid := by
  rcases exec_cases h with ⟨-, rfl⟩ | ⟨-, c, rfl⟩ | ⟨-, -, -, -, rfl⟩
  · exact ⟨rfl, rfl⟩
  · exact ⟨enterFault_rk .., enterFault_kvalid ..⟩
  · exact ⟨effectOf_rk hk s, effectOf_kvalid hk s⟩

/-- R27, R36: what `exec` leaves unchanged of the tables and `STATUS`, faulting forms included. -/
theorem exec_keeps_tables {i : Instr} {s t : State} (h : exec i s = .next t) (hi : i ≠ .init)
    (hk : ∀ ra rb, i ≠ .setkey ra rb) :
    t.tables = s.tables ∧ t.tready = s.tready ∧ (t.faulted = s.faulted → t.status = s.status) := by
  rcases exec_cases h with ⟨-, rfl⟩ | ⟨hf, c, rfl⟩ | ⟨-, -, -, -, rfl⟩
  · exact ⟨rfl, rfl, fun _ => rfl⟩
  · exact ⟨enterFault_tables .., enterFault_tready .., by simp [hf]⟩
  · obtain ⟨ht, hs⟩ := effectOf_tables_status hi hk s
    exact ⟨ht, effectOf_tready_of_other hi hk s, fun _ => hs⟩

/-- Writing a block register changes nothing else. -/
theorem onlyBlockChanged_setBlock (s : State) (rd : Reg) (v : Block) : OnlyBlockChanged rd s (s.setBlock rd v) :=
  ⟨fun _ hr => block_setBlock_other s v hr, rfl, rfl, rfl, rfl, rfl, rfl, rfl⟩

/-- R17: for the indexes a legal word carries, `roundKey` is the entry of `RK`. -/
theorem roundKey_eq (s : State) {n : Pos} (h1 : 1 ≤ n.val) (h10 : n.val ≤ 10) :
    s.rk[n.val - 1]? = some (s.roundKey n) := by
  have hn : n.val - 1 < Config.nrk := by simp only [Config.nrk]; omega
  simp [State.roundKey, h1, h10, hn]

end Sys2Proof.Machine
end

section
/-! SUPPORT. The statements about the state, the flags, the invariants and the frames. -/

namespace Sys2Proof.Machine

/-- Settles O16: bits 7:3 are never written, and the one command that sets `KVALID` sets `TREADY` with it. -/
theorem statusStaysLegal : Obligations.StatusStaysLegal := by
  unfold Obligations.StatusStaysLegal
  intro s t hs h
  refine step_preserves (fun _ _ h => h) statusLegal_applyReset ?_ (fun i _ _ h => statusLegal_effectOf i h) hs h
  intro c w s _ _ h
  simpa [statusLegal_iff] using h

/-- Settles O17: `TREADY` is set only together with the generated tables, and they are not written otherwise. -/
theorem readyTablesStayTheConstants : Obligations.ReadyTablesStayTheConstants := by
  unfold Obligations.ReadyTablesStayTheConstants
  intro s t hs h
  refine step_preserves (fun _ _ h => h) tablesHold_applyReset ?_ (fun i _ _ h => tablesHold_effectOf i h) hs h
  intro c w s _ _ h
  simpa [TablesHold] using h

/-- Settles O18: `SETKEY` alone writes `RK`, and its expansion begins with the key itself. -/
theorem validRoundKeysStayTheExpansion : Obligations.ValidRoundKeysStayTheExpansion := by
  unfold Obligations.ValidRoundKeysStayTheExpansion
  intro s t hs h
  refine step_preserves (fun _ _ h => h) keysHold_applyReset ?_ (fun i _ _ h => keysHold_effectOf i h) hs h
  intro c w s _ _ h
  simpa [KeysHold] using h

/-- Settles O19: fault entry records its reason, and no other change of state touches the record. -/
theorem faultRecordStaysTrue : Obligations.FaultRecordStaysTrue := by
  unfold Obligations.FaultRecordStaysTrue
  intro s t hs h
  exact step_preserves (fun _ _ h => h) faultRecordHolds_applyReset
    (fun _ _ _ _ hc _ => faultRecordHolds_enterFault hc) (fun i _ hf h => faultRecordHolds_effectOf i hf h) hs h

/-- Settles O9: the only outcome of a word that makes a core faulted is fault entry. -/
theorem faultEntryWritesThreeRegisters : Obligations.FaultEntryWritesThreeRegisters := by
  unfold Obligations.FaultEntryWritesThreeRegisters
  intro s t w rest hs hf h ht
  obtain ⟨c, -, rfl⟩ := fault_entry (step_command hs h) hf ht
  exact ⟨rfl, causeCode_cases c⟩

/-- Settles O21, by the outcomes of a step. -/
theorem flagsAreSetByTheirCommandsAndClearedByReset : Obligations.FlagsAreSetByTheirCommandsAndClearedByReset := by
  unfold Obligations.FlagsAreSetByTheirCommandsAndClearedByReset
  intro s t h hr
  rcases step_moves h with ⟨-, rfl⟩ | ⟨d, rest, hs, -⟩ | ⟨w, rest, hs, ho⟩
  · simp
  · exact absurd hs (hr d rest)
  rcases ho with ⟨-, rfl⟩ | ⟨hf, c, -, rfl⟩ | ⟨hf, i, hd, rfl⟩
  · simp
  · exact ⟨by simp, by simp, by simp, by simp, by simp, fun _ => ⟨w, rest, hs, rfl, causeCode_cases c⟩, by simp⟩
  · obtain ⟨-, -, hfi, -⟩ := effectOf_frame i { s with inputs := rest }
    exact ⟨fun ht => effectOf_keeps_tready i ht, fun hk => effectOf_keeps_kvalid i hk, hfi.trans,
      fun hne => ⟨w, rest, i, hs, hd, lifecycle_of_tready_ne hne⟩, fun hne => ⟨w, rest, i, hs, hd, setkey_of_kvalid_ne hne⟩,
      fun hne => absurd hfi hne, effectOf_reservedBits i _⟩

/-- Settles O22, by the frames of `exec`. -/
theorem onlyLifecycleCommandsWriteKeysAndTables : Obligations.OnlyLifecycleCommandsWriteKeysAndTables := by
  unfold Obligations.OnlyLifecycleCommandsWriteKeysAndTables
  intro i s t h
  constructor
  · intro hne
    by_contra hk
    exact hne (exec_keeps_keys h (by simpa using hk)).1
  · intro hne
    rcases lifecycle_or_other i with hi | hi | ⟨hi, hk⟩
    · exact .inl hi
    · exact .inr hi
    · exact absurd (exec_keeps_tables h hi hk).1 hne

/-- Settles O23: each clause for a refused command, for fault entry and for the command's effect. -/
theorem commandsWriteOnlyTheirDestinations : Obligations.CommandsWriteOnlyTheirDestinations := by
  unfold Obligations.CommandsWriteOnlyTheirDestinations
  intro i s t h
  have hkeys := exec_keeps_keys h
  have htables := exec_keeps_tables h
  rcases exec_cases h with ⟨-, rfl⟩ | ⟨hf, c, rfl⟩ | ⟨-, -, -, -, rfl⟩
  · simp
  · exact ⟨by simp, by simp, by simp [hf], by simp, hkeys, htables, by simp, by simp, by simp⟩
  · obtain ⟨hc, hi, hfi, hin⟩ := effectOf_frame i s
    refine ⟨fun r hr => effectOf_block hr s, fun hg => effectOf_gr hg s, fun _ => ⟨hc, hi⟩, fun hne => absurd hfi hne,
      hkeys, htables, ?_, effectOf_reservedBits i s, hin⟩
    rintro ra rb rfl ht
    simp [ht]

/-- Settles O24: the checks read `STATUS` alone, and no effect but that of `GETB` moves a block register to an output. -/
theorem blockRegistersShowOnlyThroughGetb : Obligations.BlockRegistersShowOnlyThroughGetb := by
  unfold Obligations.BlockRegistersShowOnlyThroughGetb
  intro i s t t' b hi h h'
  exact exec_related (R := fun u u' => sample u' = sample u) (s := s) (s' := { s with blocks := b }) rfl rfl
    (fun _ _ => rfl) (sample_effectOf_withBlocks hi s b) h h'

/-- Settles O25: the checks read `STATUS` alone, and no effect but those of `ENC`, `DEC` and `GETRK` reads `RK`. -/
theorem roundKeysShowOnlyThroughTheirReaders : Obligations.RoundKeysShowOnlyThroughTheirReaders := by
  unfold Obligations.RoundKeysShowOnlyThroughTheirReaders
  intro i s t t' k he hd hg h h'
  exact exec_related (R := fun u u' => u' = { u with rk := u'.rk }) (s := s) (s' := { s with rk := k }) rfl rfl
    (fun _ _ => rfl) (effectOf_withRk he hd hg s k) h h'

/-- Settles O14, by the values of `State.reset`. -/
theorem resetZeroesTheStatusRegisters : Obligations.ResetZeroesTheStatusRegisters := by
  unfold Obligations.ResetZeroesTheStatusRegisters
  exact ⟨rfl, rfl, rfl, rfl, rfl, rfl⟩

/-- Settles O20: the invariants hold after every reset move, and the reset state is the result of one. -/
theorem resetMeetsTheInvariants : Obligations.ResetMeetsTheInvariants := by
  unfold Obligations.ResetMeetsTheInvariants
  have all (d : Draw) (s : State) : StatusLegal (applyReset d s) ∧ TablesHold (applyReset d s) ∧
      KeysHold (applyReset d s) ∧ FaultRecordHolds (applyReset d s) :=
    ⟨statusLegal_applyReset d s, tablesHold_applyReset d s, keysHold_applyReset d s, faultRecordHolds_applyReset d s⟩
  refine ⟨?_, all⟩
  rw [reset_eq_applyReset]
  exact all _ _

/-- Settles O51: on a keyed core the checks pass, and the effect writes one register. -/
theorem getrkCopiesARoundKey : Obligations.GetrkCopiesARoundKey := by
  unfold Obligations.GetrkCopiesARoundKey
  rintro rd idx s h1 h10 ⟨hf, ht, hk⟩
  refine ⟨s.setBlock rd (s.roundKey idx), ?_, ?_, onlyBlockChanged_setBlock s rd _⟩
  · exact exec_ready hf (by simp [Instr.wellFormed, h1, h10]) (fun _ => ht) (fun _ => hk)
  · rw [block_setBlock_same]
    exact roundKey_eq s h1 h10

end Sys2Proof.Machine
end

section
/-! SUPPORT. The laws of issuing a command twice in a row (spec/20_memory.md R34), and the frame of the byte-result
commands. -/

namespace Sys2Proof.Machine

/-! ### A command issued twice in a row -/

/-- R177: a command that leaves an unfaulted core unfaulted has had its effect. -/
theorem exec_noFault {i : Instr} {s t : State} (h : exec i s = .next t) (hs : s.faulted = false)
    (ht : t.faulted = false) : t = effectOf i s := by
  rcases exec_cases h with ⟨hf, -⟩ | ⟨-, c, rfl⟩ | ⟨-, -, -, -, he⟩
  · rw [hs] at hf; cases hf
  · rw [enterFault_faulted] at ht; cases ht
  · exact he

/-- R34: a command whose effect, had twice, is its effect had once leaves the state of issuing it once, whatever the
first issue answered: a faulted core refuses the second, and after an effect the checks pass again. -/
theorem exec_repeat {i : Instr} {s t : State} (h : exec i s = .next t)
    (hi : effectOf i (effectOf i s) = effectOf i s) : exec i t = .next t := by
  rcases exec_cases h with ⟨hf, rfl⟩ | ⟨-, c, rfl⟩ | ⟨hf, hw, ht, hk, rfl⟩
  · exact h
  · rw [exec_eq_issue]
    exact issue_faulted (enterFault_faulted ..)
  · obtain ⟨-, -, hfi, -⟩ := effectOf_frame i s
    have again := exec_ready (hfi.trans hf) hw (fun hn => effectOf_keeps_tready i (ht hn))
      (fun hn => effectOf_keeps_kvalid i (hk hn))
    rwa [hi] at again

/-! ### The byte-result commands -/

/-- Writing `GR` changes nothing else. -/
theorem onlyGrChanged_setGr (s : State) (v : Byte) : OnlyGrChanged s (s.setGr v) :=
  ⟨fun _ => rfl, rfl, rfl, rfl, rfl, rfl, rfl⟩

/-- R12, R34: the effect of a byte-result command is a write to `GR`. -/
theorem effectOf_eq_setGr {i : Instr} (h : writesGr i = true) (s : State) :
    effectOf i s = s.setGr (effectOf i s).gr := by
  cases i with
  | getb | gfmul | pi | piinv | getl | getli | gette | gettd | getti => rfl
  | _ => cases h

/-- R34: a byte-result command does not read `GR`. -/
theorem effectOf_setGr {i : Instr} (h : writesGr i = true) (s : State) (v : Byte) :
    effectOf i (s.setGr v) = effectOf i s := by
  cases i with
  | getb | gfmul | pi | piinv | getl | getli | gette | gettd | getti => rfl
  | _ => cases h

theorem effectOf_repeat_of_writesGr {i : Instr} (h : writesGr i = true) (s : State) :
    effectOf i (effectOf i s) = effectOf i s := by
  rw [effectOf_eq_setGr h s, effectOf_setGr h]
  exact effectOf_eq_setGr h s

/-! ### `GETRK`, `INIT` and `SETKEY` -/

/-- R17: a block register is no round key. -/
@[simp] theorem setBlock_roundKey (s : State) (r : Reg) (v : Block) (n : Pos) :
    (s.setBlock r v).roundKey n = s.roundKey n := rfl

theorem effectOf_repeat_getrk (rd : Reg) (idx : Pos) (s : State) :
    effectOf (.getrk rd idx) (effectOf (.getrk rd idx) s) = effectOf (.getrk rd idx) s := by
  simp [effectOf]

@[simp] theorem setTready_setTready (b : Byte) : setTready (setTready b) = setTready b := by
  simp [setTready, BitVec.or_assoc]

/-- R14: setting both flags twice is setting them once. -/
@[simp] theorem setKvalid_setTready_repeat (b : Byte) :
    setKvalid (setTready (setKvalid (setTready b))) = setKvalid (setTready b) := by
  simp [setKvalid, setTready, BitVec.or_assoc]

/-- R128: the tables `INIT` writes are constants, and `TREADY` is set already. -/
theorem effectOf_repeat_init (s : State) : effectOf .init (effectOf .init s) = effectOf .init s := by
  simp [effectOf]

@[simp] theorem setkey_block (ra rb : Reg) (s : State) (r : Reg) :
    (effectOf (.setkey ra rb) s).block r = s.block r := rfl

/-- R154: the second `SETKEY` finds `TREADY` set, keeps the tables and expands the same two blocks. -/
theorem effectOf_repeat_setkey (ra rb : Reg) (s : State) :
    effectOf (.setkey ra rb) (effectOf (.setkey ra rb) s) = effectOf (.setkey ra rb) s := by
  rw [effectOf, setkey_tready, setkey_tables, setkey_block, setkey_block, setkey_status, setKvalid_setTready_repeat]
  rfl

end Sys2Proof.Machine
end

section
/-! SUPPORT. The statement about reads and repeated commands. -/

namespace Sys2Proof.Machine

/-- Settles O26: a command that raises no fault has its effect, and the effects of these commands are idempotent. -/
theorem readsHaveNoSideEffectAndRepeatIdempotently : Obligations.ReadsHaveNoSideEffectAndRepeatIdempotently := by
  unfold Obligations.ReadsHaveNoSideEffectAndRepeatIdempotently
  intro i s t h
  refine ⟨?_, ?_, fun hi => exec_repeat h ?_⟩
  · intro hg hs ht
    rw [exec_noFault h hs ht, effectOf_eq_setGr hg]
    exact onlyGrChanged_setGr s _
  · rintro rd idx rfl hs ht
    rw [exec_noFault h hs ht]
    exact onlyBlockChanged_setBlock s rd _
  · rcases hi with hg | ⟨rd, idx, rfl⟩ | rfl | ⟨ra, rb, rfl⟩
    · exact effectOf_repeat_of_writesGr hg s
    · exact effectOf_repeat_getrk rd idx s
    · exact effectOf_repeat_init s
    · exact effectOf_repeat_setkey ra rb s

end Sys2Proof.Machine
end

section
/-! SUPPORT. The laws of the decoder that the statements about the encoding share: which row of the opcode map a word
decodes by, the round trip of a command through its word, and the commands whose fields a format of R52 allows. -/

namespace Sys2Proof

/-! ### The row a word decodes by -/

/-- R54: every opcode names one row. -/
theorem opcodes_nodup : (opcodeMap.map Row.opcode).Nodup := by decide

/-- R60 step 1: the search by opcode finds a row under its own opcode. -/
theorem find?_opcode {row : Row} (hr : row ∈ opcodeMap) :
    opcodeMap.find? (fun r => r.opcode == row.opcode) = some row := by
  cases hf : opcodeMap.find? (fun r => r.opcode == row.opcode) with
  | none => simpa using List.find?_eq_none.mp hf row hr
  | some found =>
    have hop : found.opcode = row.opcode := by simpa using List.find?_some hf
    rw [List.inj_on_of_nodup_map opcodes_nodup (List.mem_of_find?_eq_some hf) hr hop]

/-- R60: a word with the opcode of a row whose mask it passes decodes to the command the row builds, if that command
passes the extra checks. -/
theorem decode_of_row {row : Row} {w : Word} (hr : row ∈ opcodeMap) (ho : row.opcode = (fieldsOf w).op)
    (hm : w &&& row.mask = row.pattern) (hw : (row.build (fieldsOf w)).wellFormed = true) :
    decode w = .ok (row.build (fieldsOf w)) := by
  simp [decode, ← ho, find?_opcode hr, hm, hw]

/-- R60 step 1: a word is refused as unassigned when no row has its opcode, and for no other reason. -/
theorem decode_unassigned_iff (w : Word) :
    decode w = .error .unassignedOpcode ↔ (fieldsOf w).op ∉ opcodeMap.map Row.opcode := by
  have hnone : opcodeMap.find? (fun row => row.opcode == (fieldsOf w).op) = none ↔
      (fieldsOf w).op ∉ opcodeMap.map Row.opcode := by simp
  rw [← hnone, decode]
  split
  · next hf => simp [hf]
  · next row hf =>
    rw [hf]
    split
    · split <;> simp
    · simp

/-! ### From a command to its word and back -/

/-- R54: the word of every command fits the command's own row. -/
theorem encodeRow (i : Instr) : Laws.EncodeRow.Statement i := by
  cases i with
  | init => exact Laws.EncodeRow.init
  | setkey ra rb => exact Laws.EncodeRow.setkey ra rb
  | enc rd => exact Laws.EncodeRow.enc rd
  | dec rd => exact Laws.EncodeRow.dec rd
  | setb rd idx imm8 => exact Laws.EncodeRow.setb rd idx imm8
  | getb rs idx => exact Laws.EncodeRow.getb rs idx
  | xor rd rs => exact Laws.EncodeRow.xor rd rs
  | gfmul a b => exact Laws.EncodeRow.gfmul a b
  | pi imm8 => exact Laws.EncodeRow.pi imm8
  | piinv imm8 => exact Laws.EncodeRow.piinv imm8
  | s rd rs => exact Laws.EncodeRow.s rd rs
  | sinv rd rs => exact Laws.EncodeRow.sinv rd rs
  | r rd rs => exact Laws.EncodeRow.r rd rs
  | rinv rd rs => exact Laws.EncodeRow.rinv rd rs
  | l rd rs => exact Laws.EncodeRow.l rd rs
  | linv rd rs => exact Laws.EncodeRow.linv rd rs
  | matl rd rs => exact Laws.EncodeRow.matl rd rs
  | matli rd rs => exact Laws.EncodeRow.matli rd rs
  | getl k i => exact Laws.EncodeRow.getl k i
  | getli k i => exact Laws.EncodeRow.getli k i
  | gette i v k => exact Laws.EncodeRow.gette i v k
  | gettd i v k => exact Laws.EncodeRow.gettd i v k
  | getti i v k => exact Laws.EncodeRow.getti i v k
  | lsenc rd rs => exact Laws.EncodeRow.lsenc rd rs
  | lsdec rd rs => exact Laws.EncodeRow.lsdec rd rs
  | ldinv rd rs => exact Laws.EncodeRow.ldinv rd rs
  | rcon rd imm8 => exact Laws.EncodeRow.rcon rd imm8
  | fstep ra rb rk => exact Laws.EncodeRow.fstep ra rb rk
  | getrk rd idx => exact Laws.EncodeRow.getrk rd idx

/-- R51, R54: the decoder undoes the encoder. -/
theorem decode_encode {i : Instr} (hw : i.wellFormed = true) : decode (encode i) = .ok i := by
  obtain ⟨n, row, hn, ho, hm, hb⟩ := encodeRow i
  have hd := decode_of_row (List.mem_of_getElem? hn) ho hm (by rw [hb]; exact hw)
  rwa [hb] at hd

/-- R51: a word made of the fields of a well-formed command decodes to that command. -/
theorem decode_of_fields {w : Word} {i : Instr} (hw : i.wellFormed = true) (hf : fieldsOfInstr i = fieldsOf w) :
    decode w = .ok i := by
  rw [← wordOf_fieldsOf w, ← hf]
  exact decode_encode hw

/-- R51: the fields of a legal word are those of the command it names. -/
theorem fieldsOf_of_decode {w : Word} {i : Instr} (h : decode w = .ok i) : fieldsOf w = fieldsOfInstr i := by
  rw [← Machine.encode_of_decode h, fieldsOf_encode]

/-! ### The formats of R52 -/

open Sys2Proof.Statements

/-- R56: a register field holds at most 3. -/
@[simp] theorem regField_le (r : Reg) : regField r ≤ 3#4 := by revert r; decide

@[simp] theorem regField_inj {a b : Reg} : regField a = regField b ↔ a = b :=
  Function.LeftInverse.injective regOf_regField |>.eq_iff

/-- R56: a field of at most 3 names a register. -/
theorem exists_regField {f : BitVec 4} (h : f ≤ 3) : ∃ r, regField r = f := by
  revert f; decide

theorem posField_toNat (p : Pos) : (posField p).toNat = p.val := by revert p; decide

/-- R56: every 4-bit field names a position. -/
theorem exists_posField (f : BitVec 4) : ∃ p, posField p = f := ⟨posOf f, posField_posOf f⟩

/-- R57: the range of `RCON`'s constant, as a test on its field. -/
theorem wellFormed_rcon {rd : Reg} {imm8 : Byte} :
    (Instr.rcon rd imm8).wellFormed = true ↔ 1 ≤ imm8 ∧ imm8 ≤ 32 := by
  simp [Instr.wellFormed, BitVec.le_def]

/-- R57: the range of `GETRK`'s index, as a test on its field. -/
theorem wellFormed_getrk {rd : Reg} {idx : Pos} :
    (Instr.getrk rd idx).wellFormed = true ↔ 1 ≤ posField idx ∧ posField idx ≤ 10 := by
  simp [Instr.wellFormed, BitVec.le_def, posField_toNat]

/-- R58: the register overlap of `FSTEP`, as a test on its fields. -/
theorem wellFormed_fstep {ra rb rk : Reg} :
    (Instr.fstep ra rb rk).wellFormed = true ↔ regField ra ≠ regField rb := by
  simp [Instr.wellFormed]

/-- R52, R55 to R58: the fields of a well-formed command are those its format allows. -/
theorem fieldsLegal_fieldsOfInstr {i : Instr} (hw : i.wellFormed = true) : FieldsLegal (fieldsOfInstr i) := by
  cases i with
  | rcon rd imm8 => simpa [FieldsLegal, fieldsOfInstr] using wellFormed_rcon.mp hw
  | fstep ra rb rk => simpa [FieldsLegal, fieldsOfInstr] using wellFormed_fstep.mp hw
  | getrk rd idx => simpa [FieldsLegal, fieldsOfInstr] using wellFormed_getrk.mp hw
  | _ => simp [FieldsLegal, fieldsOfInstr]

/-- The fields `f` are those of a well-formed command. -/
def NamesCommand (f : Fields) : Prop := ∃ i : Instr, i.wellFormed = true ∧ fieldsOfInstr i = f

/-- R60: a word is legal exactly when its fields are those of a well-formed command. -/
theorem exists_decode_iff (w : Word) : (∃ i, decode w = .ok i) ↔ NamesCommand (fieldsOf w) := by
  constructor
  · rintro ⟨i, h⟩
    exact ⟨i, Machine.wellFormed_of_decode h, (fieldsOf_of_decode h).symm⟩
  · rintro ⟨i, hw, hf⟩
    exact ⟨i, decode_of_fields hw hf⟩

/-- R54: the commands of format D. -/
theorem namesCommand_D {op : Byte} (hop : op ∈ [0x03#8, 0x04#8]) (rd : Reg) :
    NamesCommand ⟨op, regField rd, 0, 0, 0, 0⟩ := by
  fin_cases hop
  · exact ⟨.enc rd, rfl, rfl⟩
  · exact ⟨.dec rd, rfl, rfl⟩

/-- R54: the commands of format RR. -/
theorem namesCommand_RR {op : Byte}
    (hop : op ∈ [0x02#8, 0x12#8, 0x32#8, 0x33#8, 0x40#8, 0x41#8, 0x42#8, 0x43#8, 0x44#8, 0x45#8, 0x58#8, 0x59#8,
      0x5A#8])
    (rd rs : Reg) : NamesCommand ⟨op, regField rd, regField rs, 0, 0, 0⟩ := by
  fin_cases hop
  · exact ⟨.setkey rd rs, rfl, rfl⟩
  · exact ⟨.xor rd rs, rfl, rfl⟩
  · exact ⟨.s rd rs, rfl, rfl⟩
  · exact ⟨.sinv rd rs, rfl, rfl⟩
  · exact ⟨.r rd rs, rfl, rfl⟩
  · exact ⟨.rinv rd rs, rfl, rfl⟩
  · exact ⟨.l rd rs, rfl, rfl⟩
  · exact ⟨.linv rd rs, rfl, rfl⟩
  · exact ⟨.matl rd rs, rfl, rfl⟩
  · exact ⟨.matli rd rs, rfl, rfl⟩
  · exact ⟨.lsenc rd rs, rfl, rfl⟩
  · exact ⟨.lsdec rd rs, rfl, rfl⟩
  · exact ⟨.ldinv rd rs, rfl, rfl⟩

/-- R54: the commands of format I. -/
theorem namesCommand_I {op : Byte} (hop : op ∈ [0x30#8, 0x31#8]) (imm8 : Byte) :
    NamesCommand ⟨op, 0, 0, 0, 0, imm8⟩ := by
  fin_cases hop
  · exact ⟨.pi imm8, rfl, rfl⟩
  · exact ⟨.piinv imm8, rfl, rfl⟩

/-- R54: the commands of format KI. -/
theorem namesCommand_KI {op : Byte} (hop : op ∈ [0x46#8, 0x47#8]) (k i : Pos) :
    NamesCommand ⟨op, 0, 0, posField k, posField i, 0⟩ := by
  fin_cases hop
  · exact ⟨.getl k i, rfl, rfl⟩
  · exact ⟨.getli k i, rfl, rfl⟩

/-- R54: the commands of format T. -/
theorem namesCommand_T {op : Byte} (hop : op ∈ [0x50#8, 0x51#8, 0x52#8]) (i : Pos) (v : Byte) (k : Pos) :
    NamesCommand ⟨op, 0, 0, posField i, posField k, v⟩ := by
  fin_cases hop
  · exact ⟨.gette i v k, rfl, rfl⟩
  · exact ⟨.gettd i v k, rfl, rfl⟩
  · exact ⟨.getti i v k, rfl, rfl⟩

/-- R52, R54: fields that the format of their opcode allows are those of a well-formed command. -/
theorem namesCommand_of_fieldsLegal {f : Fields} (h : FieldsLegal f) : NamesCommand f := by
  obtain ⟨op, rd, rs, rt, idx, imm8⟩ := f
  rcases h with ⟨rfl, rfl, rfl, rfl, rfl, rfl⟩ | ⟨hop, hrd, rfl, rfl, rfl, rfl⟩ | ⟨hop, hrd, hrs, rfl, rfl, rfl⟩ |
    ⟨rfl, hrd, hrs, hrt, rfl, rfl, hne⟩ | ⟨rfl, hrd, rfl, rfl⟩ | ⟨rfl, rfl, hrs, rfl, rfl⟩ |
    ⟨rfl, hrd, rfl, rfl, rfl, h1, h10⟩ | ⟨rfl, hrd, rfl, rfl, rfl, h1, h32⟩ | ⟨hop, rfl, rfl, rfl, rfl⟩ | ⟨rfl, rfl, rfl⟩ |
    ⟨hop, rfl, rfl, rfl⟩ | ⟨hop, rfl, rfl⟩
  · -- Z
    exact ⟨.init, rfl, rfl⟩
  · -- D
    obtain ⟨rd, rfl⟩ := exists_regField hrd
    exact namesCommand_D hop rd
  · -- RR
    obtain ⟨rd, rfl⟩ := exists_regField hrd
    obtain ⟨rs, rfl⟩ := exists_regField hrs
    exact namesCommand_RR hop rd rs
  · -- RRR
    obtain ⟨ra, rfl⟩ := exists_regField hrd
    obtain ⟨rb, rfl⟩ := exists_regField hrs
    obtain ⟨rk, rfl⟩ := exists_regField hrt
    exact ⟨.fstep ra rb rk, wellFormed_fstep.mpr hne, rfl⟩
  · -- DXI
    obtain ⟨rd, rfl⟩ := exists_regField hrd
    obtain ⟨x, rfl⟩ := exists_posField idx
    exact ⟨.setb rd x imm8, rfl, rfl⟩
  · -- SX
    obtain ⟨rs, rfl⟩ := exists_regField hrs
    obtain ⟨x, rfl⟩ := exists_posField idx
    exact ⟨.getb rs x, rfl, rfl⟩
  · -- DX
    obtain ⟨rd, rfl⟩ := exists_regField hrd
    obtain ⟨x, rfl⟩ := exists_posField idx
    exact ⟨.getrk rd x, wellFormed_getrk.mpr ⟨h1, h10⟩, rfl⟩
  · -- DI
    obtain ⟨rd, rfl⟩ := exists_regField hrd
    exact ⟨.rcon rd imm8, wellFormed_rcon.mpr ⟨h1, h32⟩, rfl⟩
  · -- I
    exact namesCommand_I hop imm8
  · -- AB
    exact ⟨.gfmul (byteOf rt idx) imm8, rfl, by simp [fieldsOfInstr]⟩
  · -- KI
    obtain ⟨k, rfl⟩ := exists_posField rt
    obtain ⟨x, rfl⟩ := exists_posField idx
    exact namesCommand_KI hop k x
  · -- T
    obtain ⟨x, rfl⟩ := exists_posField rt
    obtain ⟨k, rfl⟩ := exists_posField idx
    exact namesCommand_T hop x imm8 k

/-- R52 to R58: what the formats allow is what the commands make. -/
theorem fieldsLegal_iff (f : Fields) : FieldsLegal f ↔ NamesCommand f := by
  constructor
  · exact namesCommand_of_fieldsLegal
  · rintro ⟨i, hw, rfl⟩
    exact fieldsLegal_fieldsOfInstr hw

end Sys2Proof
end

section
/-! SUPPORT. The laws of one presented word (R177), and the effect of `XOR`. -/

namespace Sys2Proof.Machine

/-- R177 step 1, for a word that does not decode. -/
theorem issueIllegal_faulted {w : Word} {s : State} (h : s.faulted = true) : issueIllegal w s = .next s := by
  simp [issueIllegal, h]

/-- R177 step 2, for a word that does not decode. -/
theorem issueIllegal_ready {w : Word} {s : State} (h : s.faulted = false) :
    issueIllegal w s = .next (enterFault .illegalCommand w s) := by
  simp [issueIllegal, h]

/-- R177 step 1: a faulted core refuses a command. -/
theorem exec_faulted {i : Instr} {s : State} (h : s.faulted = true) : exec i s = .next s := by
  rw [exec_eq_issue, issue_faulted h]

/-- R177 step 3, as the list of commands that need `TREADY`. -/
theorem exec_noTables {i : Instr} {s : State} (h : s.faulted = false) (hw : i.wellFormed = true)
    (hn : needsTready i = true) (ht : s.tready = false) :
    exec i s = .next (enterFault .incompleteTransform (encode i) s) := by
  rw [exec_eq_issue, issue_noTables h hw (by simpa using hn) ht]

/-- R177 step 4, as the list of commands that need `KVALID`. -/
theorem exec_noKey {i : Instr} {s : State} (h : s.faulted = false) (hw : i.wellFormed = true)
    (hn : needsKvalid i = true) (ht : s.tready = true) (hk : s.kvalid = false) :
    exec i s = .next (enterFault .keyNotSet (encode i) s) := by
  rw [exec_eq_issue, issue_noKey h hw ht (by simpa using hn) hk]

/-- R177: a step on a word that decodes is the execution of the command it names. -/
theorem step_of_decode_ok {s : State} {w : Word} {rest : List HostMove} {i : Instr}
    (hs : s.inputs = .command w :: rest) (hd : decode w = .ok i) : step s = exec i { s with inputs := rest } := by
  simp [step, takeInput_cons hs, hd]

/-- R59: a step on a word that does not decode. -/
theorem step_of_decode_error {s : State} {w : Word} {rest : List HostMove} {e : Illegal}
    (hs : s.inputs = .command w :: rest) (hd : decode w = .error e) :
    step s = issueIllegal w { s with inputs := rest } := by
  simp [step, takeInput_cons hs, hd]

/-- R176: a step of a faulted core takes the word and changes nothing else. -/
theorem step_faulted {s : State} {w : Word} {rest : List HostMove} (hs : s.inputs = .command w :: rest)
    (hf : s.faulted = true) : step s = .next { s with inputs := rest } := by
  cases hd : decode w with
  | ok i => exact (step_of_decode_ok hs hd).trans (exec_faulted hf)
  | error e => exact (step_of_decode_error hs hd).trans (issueIllegal_faulted hf)

/-- R71: `XOR` on a core that has not faulted. -/
theorem exec_xor {s : State} (rd rs : Reg) (h : s.faulted = false) :
    exec (.xor rd rs) s = .next (s.setBlock rd (xorBlock (s.block rd) (s.block rs))) :=
  exec_ready h rfl (fun hn => nomatch hn) (fun hn => nomatch hn)

/-- R62: `XOR rd, rd` clears the register. -/
theorem exec_xor_same {s : State} (rd : Reg) (h : s.faulted = false) :
    exec (.xor rd rd) s = .next (s.setBlock rd zeroBlock) := by
  rw [exec_xor rd rd h, xorBlock_self]

/-- R62: `XOR rd, rs` on a core whose `B[rd]` has been cleared copies `B[rs]`. -/
theorem exec_xor_cleared {s : State} {rd rs : Reg} (hne : rd ≠ rs) (h : s.faulted = false) :
    exec (.xor rd rs) (s.setBlock rd zeroBlock) = .next (s.setBlock rd (s.block rs)) := by
  rw [exec_xor (s := s.setBlock rd zeroBlock) rd rs h, block_setBlock_same, block_setBlock_other s _ hne.symm,
    zero_xorBlock, setBlock_setBlock]

end Sys2Proof.Machine
end

section
/-! SUPPORT. The statements about the encoding, the order of checks and the pseudo-instructions. -/

namespace Sys2Proof.Machine

/-- Settles O2: the word of a command fits the row the search by opcode finds. -/
theorem encodedCommandDecodesToItself : Obligations.EncodedCommandDecodesToItself := by
  unfold Obligations.EncodedCommandDecodesToItself
  exact fun _ hw => decode_encode hw

/-- Settles O3: no mask leaves a bit of the word free. -/
theorem decodedCommandEncodesToItsWord : Obligations.DecodedCommandEncodesToItsWord := by
  unfold Obligations.DecodedCommandEncodesToItsWord
  exact fun _ _ h => ⟨wellFormed_of_decode h, encode_of_decode h⟩

/-- Settles O4: both sides say that the fields are those of a well-formed command. -/
theorem legalWordsAreThoseWithLegalFields : Obligations.LegalWordsAreThoseWithLegalFields := by
  unfold Obligations.LegalWordsAreThoseWithLegalFields
  exact fun w => (exists_decode_iff w).trans (fieldsLegal_iff (fieldsOf w)).symm

/-- Settles O1: each word is made of the fields of its command. -/
theorem manualWordsDecode : Obligations.ManualWordsDecode := by
  unfold Obligations.ManualWordsDecode
  and_intros <;> exact decode_of_fields rfl (by decide)

/-- Settles O5: the opcodes of the map are the list of the statement. -/
theorem opcodesOutsideTheMapAreUnassigned : Obligations.OpcodesOutsideTheMapAreUnassigned := by
  unfold Obligations.OpcodesOutsideTheMapAreUnassigned
  have hmap : opcodeMap.map Row.opcode = Statements.assignedOpcodes := rfl
  have hiff (w : Word) : decode w = .error .unassignedOpcode ↔ (fieldsOf w).op ∉ Statements.assignedOpcodes := by
    rw [decode_unassigned_iff, hmap]
  exact ⟨hiff, by decide +kernel, (hiff _).mpr (by decide), (hiff _).mpr (by decide)⟩

/-- Settles O8: each check in the order of R177. -/
theorem eachWordIsCheckedInOrder : Obligations.EachWordIsCheckedInOrder := by
  unfold Obligations.EachWordIsCheckedInOrder
  rintro s t w rest hs rfl
  refine ⟨step_faulted hs, fun hf => ⟨fun e hd => ?_, fun i hd => ?_⟩⟩
  · exact (step_of_decode_error hs hd).trans (issueIllegal_ready hf)
  have hw := wellFormed_of_decode hd
  obtain rfl := encode_of_decode hd
  rw [step_of_decode_ok hs hd]
  refine ⟨fun hn ht => exec_noTables hf hw hn ht, fun hn ht hk => exec_noKey hf hw hn ht hk, fun ht hk => ?_⟩
  obtain ⟨hc, hi, hfi, -⟩ := effectOf_frame i { s with inputs := rest }
  exact ⟨_, exec_ready hf hw ht hk, hfi.trans hf, hc, hi⟩

/-- Settles O59: `XOR rd, rd` clears the register, and `XOR` into a cleared register copies. -/
theorem pseudoInstructionsClearAndMove : Obligations.PseudoInstructionsClearAndMove := by
  unfold Obligations.PseudoInstructionsClearAndMove
  intro rd rs s hf
  refine ⟨⟨rfl, ?_⟩, fun hne => ⟨by simp [expandPseudo, hne], ?_⟩, by simp [expandPseudo]⟩
  · exact ⟨_, exec_xor_same rd hf, block_setBlock_same .., onlyBlockChanged_setBlock s rd _⟩
  · exact ⟨_, _, exec_xor_same rd hf, exec_xor_cleared hne hf, block_setBlock_same .., onlyBlockChanged_setBlock s rd _⟩

end Sys2Proof.Machine
end

section
/-! SUPPORT. The laws of the block commands and of `RCON`: each command on a core whose checks pass, the bytes of a
written block, and byte 15 of L (spec/43_diffusion.md R102, R104). -/

namespace Sys2Proof.Machine

/-! ### The commands on a core whose checks pass -/

/-- R72: `SETB` on a core that has not faulted. -/
theorem exec_setb {s : State} (rd : Reg) (idx : Pos) (imm8 : Byte) (h : s.faulted = false) :
    exec (.setb rd idx imm8) s = .next (s.setBlock rd (setByte (s.block rd) idx imm8)) :=
  exec_ready h rfl (fun hn => nomatch hn) (fun hn => nomatch hn)

/-- R73: `GETB` on a core that has not faulted. -/
theorem exec_getb {s : State} (rs : Reg) (idx : Pos) (h : s.faulted = false) :
    exec (.getb rs idx) s = .next (s.setGr (s.blockByte rs idx)) :=
  exec_ready h rfl (fun hn => nomatch hn) (fun hn => nomatch hn)

/-- R22(b), R84: on a core whose tables are ready and true, the products read from `MUL` are those of `gf_mul`. -/
theorem mulAt_of_ready {s : State} (hold : TablesHold s) (ht : s.tready = true) : s.mulAt = gfMul := by
  funext a b
  rw [State.mulAt, hold ht, mulRead_generateTables]

/-- R155: `RCON` on a core whose tables are ready and true. -/
theorem exec_rcon {s : State} (rd : Reg) {imm8 : Byte} (h1 : 1 ≤ imm8.toNat) (h32 : imm8.toNat ≤ 32)
    (hold : TablesHold s) (h : TablesReady s) :
    exec (.rcon rd imm8) s = .next (s.setBlock rd (roundConst gfMul imm8.toNat)) := by
  obtain ⟨hf, ht⟩ := h
  have hw : (Instr.rcon rd imm8).wellFormed = true := by simp [Instr.wellFormed, h1, h32]
  rw [exec_ready hf hw (fun _ => ht) (fun hn => nomatch hn), effectOf, mulAt_of_ready hold ht]

/-! ### The bytes of a block with one byte written -/

@[simp] theorem setByte_getElem_same (x : Block) (i : Pos) (v : Byte) : (setByte x i v)[i] = v := by
  simp [setByte]

theorem setByte_getElem_other (x : Block) {i k : Pos} (v : Byte) (h : k ≠ i) : (setByte x i v)[k] = x[k] := by
  have hv : i.val ≠ k.val := fun he => h (Fin.ext he.symm)
  simp [setByte, hv]

/-! ### Byte 15 of L -/

/-- R102: `n` steps R move byte `i` to byte `i + n`. -/
theorem iterate_stepR_getElem (mul : Byte → Byte → Byte) (n : Nat) (x : Block) (i : Nat) (h : i + n < 16) :
    (iterate (stepR mul) n x)[i + n] = x[i] := by
  induction n generalizing x i with
  | zero => rfl
  | succ n ih =>
    calc (iterate (stepR mul) (n + 1) x)[i + (n + 1)]
      _ = (iterate (stepR mul) n (stepR mul x))[i + 1 + n] := by simp [iterate, Nat.add_right_comm i 1 n, Nat.add_assoc]
      _ = (stepR mul x)[i + 1] := ih _ _ _
      _ = x[i] := stepR_succ mul x i (by omega)

/-- R104: the feedback of the first step is byte 15 after all sixteen. -/
theorem transL_getElem_last (mul : Byte → Byte → Byte) (x : Block) : (transL mul x)[15] = ell mul x :=
  (iterate_stepR_getElem mul 15 (stepR mul x) 0 (by omega)).trans (stepR_zero mul x)

@[simp] theorem gfMul_zero_right (a : Byte) : gfMul a 0#8 = 0#8 := by
  simpa using gfMul_xor_right a 0 0

/-- R101: `TV[15]` = 1, so the feedback of a block with no other byte than byte 15 is that byte. -/
theorem ell_unitBlock_last (c : Byte) : ell gfMul (unitBlock 15 c) = c := by
  have hlast : gfMul tv[15] c = c := gfMul_one_left c
  simp [ell, xorSum_expand, hlast]

/-- R77: an integer of one byte stands in byte 15, and the other bytes are zero. -/
theorem blockOfInt_toNat (c : Byte) : blockOfInt c.toNat = unitBlock 15 c := by
  apply block_ext
  intro i
  by_cases hi : i = 15
  · simp [hi, blockOfInt]
  · have hne : i.val ≠ 15 := fun he => hi (Fin.ext he)
    have hlt : c.toNat < 2 ^ (8 * (15 - i.val)) :=
      c.isLt.trans_le (Nat.pow_le_pow_right (by omega) (by omega))
    simp [blockOfInt, Nat.shiftRight_eq_div_pow, Nat.div_eq_of_lt hlt, hne]

/-- R150: byte 15 of a round constant is its index. -/
theorem roundConst_getElem_last (c : Byte) : (roundConst gfMul c.toNat)[15] = c := by
  rw [roundConst, transL_getElem_last, blockOfInt_toNat, ell_unitBlock_last]

end Sys2Proof.Machine
end

section
/-! SUPPORT. The laws of the host's text form (spec/40_block.md R74, R75): a text parses to a block exactly when it is the
text written of that block. -/

namespace Sys2Proof.Machine

/-! ### One digit -/

/-- R74, R75: a character has the value `n` exactly when it is the digit of `n`. -/
theorem hexValue_eq_some_iff {c : Char} {n : BitVec 4} : hexValue c = some n ↔ hexDigit n = c := by
  constructor
  · intro h
    unfold hexValue at h
    split at h
    · next hc =>
      obtain rfl : BitVec.ofNat 4 (c.toNat - 48) = n := Option.some.inj h
      have hv : (BitVec.ofNat 4 (c.toNat - 48)).toNat = c.toNat - 48 := by simp; omega
      rw [hexDigit, hv, if_pos (by omega), Nat.add_sub_cancel' hc.1, Char.ofNat_toNat]
    split at h
    · next hc =>
      obtain rfl : BitVec.ofNat 4 (c.toNat - 87) = n := Option.some.inj h
      have hv : (BitVec.ofNat 4 (c.toNat - 87)).toNat = c.toNat - 87 := by simp; omega
      rw [hexDigit, hv, if_neg (by omega), Nat.add_sub_cancel' (by omega), Char.ofNat_toNat]
    · cases h
  · rintro rfl
    revert n
    decide

/-- R74: the sixteen digits are those of the sixteen nibbles. -/
theorem mem_hexDigits_iff {c : Char} : c ∈ "0123456789abcdef".toList ↔ ∃ n, hexDigit n = c := by
  have hall : "0123456789abcdef".toList = (List.finRange 16).map fun n => hexDigit (BitVec.ofFin n) := by decide
  rw [hall]
  constructor
  · intro h
    obtain ⟨n, -, hn⟩ := List.mem_map.mp h
    exact ⟨_, hn⟩
  · rintro ⟨n, rfl⟩
    exact List.mem_map.mpr ⟨n.toFin, List.mem_finRange _, rfl⟩

/-! ### A list of bytes -/

/-- R74: the text of a list of bytes, the form in which the laws of `formatHex` go by induction. -/
def formatBytes (bs : List Byte) : List Char := bs.flatMap fun b => [hexDigit (highHalf b), hexDigit (lowHalf b)]

theorem formatHex_eq_formatBytes (x : Block) : formatHex x = formatBytes x.toList := rfl

@[simp] theorem formatBytes_nil : formatBytes [] = [] := rfl

@[simp] theorem formatBytes_cons (b : Byte) (bs : List Byte) :
    formatBytes (b :: bs) = hexDigit (highHalf b) :: hexDigit (lowHalf b) :: formatBytes bs := rfl

@[simp] theorem formatBytes_length (bs : List Byte) : (formatBytes bs).length = 2 * bs.length := by
  induction bs with
  | nil => rfl
  | cons b bs ih => simp [ih]; omega

/-- R74: a text consists of digits. -/
theorem mem_formatBytes {c : Char} {bs : List Byte} (h : c ∈ formatBytes bs) : ∃ n, hexDigit n = c := by
  induction bs with
  | nil => cases h
  | cons b bs ih =>
    rw [formatBytes_cons, List.mem_cons, List.mem_cons] at h
    rcases h with rfl | rfl | h
    · exact ⟨_, rfl⟩
    · exact ⟨_, rfl⟩
    · exact ih h

/-- R74: every text of digits, two for a byte, is the text of some bytes. -/
theorem exists_formatBytes (n : Nat) {s : List Char} (hl : s.length = 2 * n) (hd : ∀ c ∈ s, ∃ v, hexDigit v = c) :
    ∃ bs, formatBytes bs = s := by
  induction n generalizing s with
  | zero => exact ⟨[], (List.length_eq_zero_iff.mp hl).symm⟩
  | succ n ih =>
    match s, hl with
    | a :: b :: rest, hl =>
      obtain ⟨hi, rfl⟩ := hd a (by simp)
      obtain ⟨lo, rfl⟩ := hd b (by simp)
      obtain ⟨bs, rfl⟩ := ih (s := rest) (by simp at hl; omega) fun c hc => hd c (by simp [hc])
      exact ⟨byteOf hi lo :: bs, by simp⟩

/-- R75: a text parses to the bytes whose text it is, and to no others. -/
theorem parseBytes_eq_some_iff {s : List Char} {bs : List Byte} : parseBytes s = some bs ↔ formatBytes bs = s := by
  constructor
  · intro h
    induction s using parseBytes.induct generalizing bs with
    | case1 => cases h; rfl
    | case2 c => cases h
    | case3 a b rest hi lo tail ht hb ha ih =>
      obtain rfl : byteOf hi lo :: tail = bs := by simpa [parseBytes, ha, hb, ht] using h
      rw [formatBytes_cons, highHalf_byteOf, lowHalf_byteOf, hexValue_eq_some_iff.mp ha, hexValue_eq_some_iff.mp hb,
        ih ht]
    | case4 a b rest hnone ih =>
      -- `hnone` selects the last arm of `parseBytes`, which answers none.
      simp [parseBytes] at h
  · rintro rfl
    induction bs with
    | nil => rfl
    | cons b bs ih =>
      have digit (n : BitVec 4) : hexValue (hexDigit n) = some n := hexValue_eq_some_iff.mpr rfl
      simp [parseBytes, digit, ih]

/-! ### A block -/

/-- R75, R76: a text parses to the block whose text it is, and to no other. -/
theorem parseHex_eq_ok_iff {s : List Char} {x : Block} : parseHex s = .ok x ↔ formatHex x = s := by
  rw [formatHex_eq_formatBytes, ← parseBytes_eq_some_iff, parseHex]
  constructor
  · intro h
    split at h
    · cases h
    · next bs hbs =>
      split at h
      · cases h; exact hbs
      · cases h
  · intro h
    simp [h, Vector.toList]

/-- R75: the texts of blocks are the texts of 32 digits. -/
theorem exists_formatHex_iff {s : List Char} :
    (∃ x, formatHex x = s) ↔ s.length = 32 ∧ ∀ c ∈ s, c ∈ "0123456789abcdef".toList := by
  simp only [mem_hexDigits_iff, formatHex_eq_formatBytes]
  constructor
  · rintro ⟨x, rfl⟩
    exact ⟨by simp, fun c hc => mem_formatBytes hc⟩
  · rintro ⟨hl, hd⟩
    obtain ⟨bs, rfl⟩ := exists_formatBytes 16 hl hd
    have h16 : bs.length = 16 := by rw [formatBytes_length] at hl; omega
    exact ⟨⟨⟨bs⟩, h16⟩, rfl⟩

end Sys2Proof.Machine
end

section
/-! SUPPORT. The statements about the block commands, `RCON` and the host's text. -/

namespace Sys2Proof.Machine

/-- Settles O48: byte 15 of L is the feedback of its first step, in which the one byte of the index has the factor 1. -/
theorem rconWritesTheRoundConstant : Obligations.RconWritesTheRoundConstant := by
  unfold Obligations.RconWritesTheRoundConstant
  intro rd imm8 s h1 h32 hold hready
  refine ⟨_, exec_rcon rd h1 h32 hold hready, block_setBlock_same .., ?_, onlyBlockChanged_setBlock s rd _⟩
  rw [block_setBlock_same]
  exact roundConst_getElem_last imm8

/-- Settles O57: a text parses to exactly the block whose text it is. -/
theorem hexTextRoundTrips : Obligations.HexTextRoundTrips := by
  unfold Obligations.HexTextRoundTrips
  exact ⟨fun _ _ h => parseHex_eq_ok_iff.mp h, fun _ => parseHex_eq_ok_iff.mpr rfl⟩

/-- Settles O58: the texts that parse are the texts of blocks, and there is one error. -/
theorem parseHexAcceptsExactlyTheTextForm : Obligations.ParseHexAcceptsExactlyTheTextForm := by
  unfold Obligations.ParseHexAcceptsExactlyTheTextForm
  intro s
  have hiff : (∃ x, parseHex s = .ok x) ↔ s.length = 32 ∧ ∀ c ∈ s, c ∈ "0123456789abcdef".toList := by
    simp only [parseHex_eq_ok_iff, exists_formatHex_iff]
  refine ⟨hiff, fun hn => ?_⟩
  cases hp : parseHex s with
  | ok x => exact absurd (hiff.mp ⟨x, hp⟩) hn
  | error e => cases e; rfl

/-- Settles O27: the sum of two blocks is taken byte by byte, and the sum of a block with itself is zero. -/
theorem xorAddsBytewise : Obligations.XorAddsBytewise := by
  unfold Obligations.XorAddsBytewise
  intro rd rs s hf
  refine ⟨_, exec_xor rd rs hf, fun k => ?_, ?_, onlyBlockChanged_setBlock s rd _⟩
  · rw [block_setBlock_same]
    exact xorBlock_getElem _ _ _ _
  · rintro rfl
    rw [block_setBlock_same, xorBlock_self]

/-- Settles O28: the register is written with its own block, one byte of it replaced. -/
theorem setbWritesOneByte : Obligations.SetbWritesOneByte := by
  unfold Obligations.SetbWritesOneByte
  intro rd idx imm8 s hf
  refine ⟨_, exec_setb rd idx imm8 hf, ?_, fun k hk => ?_, onlyBlockChanged_setBlock s rd _⟩
  · rw [block_setBlock_same, setByte_getElem_same]
  · rw [block_setBlock_same, setByte_getElem_other _ _ hk]

/-- Settles O29: the effect is a write of the byte to `GR`. -/
theorem getbReadsOneByte : Obligations.GetbReadsOneByte := by
  unfold Obligations.GetbReadsOneByte
  intro rs idx s hf
  exact ⟨_, exec_getb rs idx hf, rfl, onlyGrChanged_setGr s _⟩

end Sys2Proof.Machine
end

section
/-! SUPPORT. The laws of `gf_mul` (spec/41_gf256.md R82, R83): it commutes with doubling, every byte is a sum of
doublings of 1, and the doublings of 1 run through all nonzero bytes. -/

namespace Sys2Proof.Machine

/-! ### Induction over the loop -/

/-- R82: what holds of a byte and of 0, and is kept by XOR and by doubling, holds of every multiple of the byte, because
the loop forms the multiple by nothing else. -/
theorem gfMulLoop_induction {P : Byte → Prop} (zero : P 0) (xor : ∀ a b, P a → P b → P (a ^^^ b))
    (double : ∀ a, P a → P (gfDouble a)) (n : Nat) {a : Byte} (ha : P a) (b : Byte) : P (gfMulLoop n a b 0) := by
  induction n generalizing a b with
  | zero => exact zero
  | succ n ih =>
    rw [gfMulLoop_succ]
    refine xor _ _ (ih (double a ha) _) ?_
    split
    · exact ha
    · exact zero

/-- Every byte is a multiple of 1, so it is reached from 0 and 1 by XOR and doubling. -/
theorem byte_induction {P : Byte → Prop} (zero : P 0) (one : P 1) (xor : ∀ a b, P a → P b → P (a ^^^ b))
    (double : ∀ a, P a → P (gfDouble a)) (b : Byte) : P b :=
  gfMul_one_left b ▸ gfMulLoop_induction zero xor double 8 one b

/-! ### The product and doubling -/

@[simp] theorem gfDouble_zero : gfDouble 0#8 = 0#8 := by decide

@[simp] theorem gfMul_zero_left (b : Byte) : gfMul 0#8 b = 0#8 := by
  simpa using gfMul_xor_left 0 0 b

/-- The loop takes a doubled multiplicand to the doubled product. -/
theorem gfMulLoop_gfDouble (n : Nat) (a b : Byte) : gfMulLoop n (gfDouble a) b 0 = gfDouble (gfMulLoop n a b 0) := by
  induction n generalizing a b with
  | zero => exact gfDouble_zero.symm
  | succ n ih =>
    rw [gfMulLoop_succ, gfMulLoop_succ, ih, gfDouble_xor, apply_ite gfDouble]
    rfl

/-- A doubled left operand doubles the product. -/
theorem gfMul_gfDouble_left (a b : Byte) : gfMul (gfDouble a) b = gfDouble (gfMul a b) := gfMulLoop_gfDouble 8 a b

/-- A doubled right operand doubles the product. -/
theorem gfMul_gfDouble_right (a b : Byte) : gfMul a (gfDouble b) = gfDouble (gfMul a b) := by
  induction a using byte_induction with
  | zero => simp
  | one => rw [gfMul_one_left, gfMul_one_left]
  | xor a a' iha iha' => rw [gfMul_xor_left, gfMul_xor_left, gfDouble_xor, iha, iha']
  | double a ih => rw [gfMul_gfDouble_left, gfMul_gfDouble_left, ih]

/-- R83: 0x02 is the doubling of 1, and multiplication by it is doubling. -/
theorem gfMul_two (b : Byte) : gfMul 2 b = gfDouble b := by
  have h : gfMul (gfDouble 1) b = gfDouble b := by rw [gfMul_gfDouble_left, gfMul_one_left]
  exact h

/-- R82: the top bit of a byte is set from 0x80 on. -/
theorem getLsbD_seven_iff (b : Byte) : b.getLsbD 7 = true ↔ 0x80 ≤ b.toNat := by
  rw [← BitVec.msb_eq_getLsbD_last, BitVec.msb_eq_decide, decide_eq_true_iff]

theorem gfDouble_of_lt {b : Byte} (h : b.toNat < 0x80) : gfDouble b = b <<< 1 :=
  if_neg fun hb => absurd ((getLsbD_seven_iff b).mp hb) (by omega)

theorem gfDouble_of_ge {b : Byte} (h : 0x80 ≤ b.toNat) : gfDouble b = b <<< 1 ^^^ 0xC3 :=
  if_pos ((getLsbD_seven_iff b).mpr h)

/-! ### The ring laws -/

theorem gfMul_one_right (a : Byte) : gfMul a 1 = a := by
  induction a using byte_induction with
  | zero => exact gfMul_zero_left 1
  | one => exact gfMul_one_left 1
  | xor a b iha ihb => rw [gfMul_xor_left, iha, ihb]
  | double a ih => rw [gfMul_gfDouble_left, ih]

theorem gfMul_comm (a b : Byte) : gfMul a b = gfMul b a := by
  induction b using byte_induction with
  | zero => exact (gfMul_zero_right a).trans (gfMul_zero_left a).symm
  | one => rw [gfMul_one_right, gfMul_one_left]
  | xor b b' ih ih' => rw [gfMul_xor_right, gfMul_xor_left, ih, ih']
  | double b ih => rw [gfMul_gfDouble_right, gfMul_gfDouble_left, ih]

theorem gfMul_assoc (a b c : Byte) : gfMul (gfMul a b) c = gfMul a (gfMul b c) := by
  induction a using byte_induction with
  | zero => simp
  | one => rw [gfMul_one_left, gfMul_one_left]
  | xor a a' ih ih' => simp only [gfMul_xor_left, ih, ih']
  | double a ih => simp only [gfMul_gfDouble_left, ih]

/-! ### The powers of 0x02 -/

open Statements Function

theorem gfPowTwo_eq_iterate (n : Nat) : gfPowTwo n = gfDouble^[n] 1 := by
  induction n with
  | zero => rfl
  | succ n ih => rw [gfPowTwo, gfMul_two, ih, iterate_succ_apply']

theorem gfPowTwo_add (m n : Nat) : gfPowTwo (m + n) = gfMul (gfPowTwo m) (gfPowTwo n) := by
  induction m with
  | zero => rw [Nat.zero_add, gfPowTwo, gfMul_one_left]
  | succ m ih => rw [Nat.succ_add, gfPowTwo, gfPowTwo, ih, gfMul_assoc]

/-- R83: 1 returns to itself after 255 doublings and, as it does not after a proper divisor of 255, no sooner. -/
theorem minimalPeriod_gfDouble_one : minimalPeriod gfDouble 1 = 255 := by
  have hperiod : IsPeriodicPt gfDouble 255 1 := by
    unfold IsPeriodicPt IsFixedPt
    decide +kernel
  have hsooner : ∀ d ∈ Nat.properDivisors 255, gfDouble^[d] 1 ≠ 1 := by decide +kernel
  by_contra hne
  have hdvd := hperiod.minimalPeriod_dvd
  have hlt := lt_of_le_of_ne (Nat.le_of_dvd (by decide) hdvd) hne
  exact hsooner _ (Nat.mem_properDivisors.mpr ⟨hdvd, hlt⟩) iterate_minimalPeriod

theorem gfPowTwo_order : gfPowTwo 255 = 1 := by
  rw [gfPowTwo_eq_iterate, ← minimalPeriod_gfDouble_one]
  exact iterate_minimalPeriod

theorem gfPowTwo_ne_one {n : Nat} (h0 : 0 < n) (h : n < 255) : gfPowTwo n ≠ 1 := by
  rw [gfPowTwo_eq_iterate]
  exact not_isPeriodicPt_of_pos_of_lt_minimalPeriod h0.ne' (minimalPeriod_gfDouble_one ▸ h)

theorem gfPowTwo_injOn : Set.InjOn gfPowTwo (Set.Iio 255) := by
  have h := iterate_injOn_Iio_minimalPeriod (f := gfDouble) (x := 1)
  rw [minimalPeriod_gfDouble_one] at h
  exact h.congr fun n _ => (gfPowTwo_eq_iterate n).symm

/-! ### Inverses -/

/-- A power of 0x02 and the power that completes its exponent to 255 are inverses. -/
theorem gfMul_gfPowTwo_complement {n : Nat} (h : n < 255) : gfMul (gfPowTwo n) (gfPowTwo (255 - n)) = 1 := by
  rw [← gfPowTwo_add, Nat.add_sub_cancel' h.le, gfPowTwo_order]

theorem gfPowTwo_ne_zero {n : Nat} (h : n < 255) : gfPowTwo n ≠ 0 := by
  intro h0
  have h1 := gfMul_gfPowTwo_complement h
  rw [h0] at h1
  exact absurd ((gfMul_zero_left _).symm.trans h1) (by decide)

/-- R83: the 255 powers of 0x02 differ and none is zero, so they are all the 255 nonzero bytes. -/
theorem exists_gfPowTwo {a : Byte} (ha : a ≠ 0) : ∃ n < 255, gfPowTwo n = a := by
  have hmaps : Set.MapsTo gfPowTwo (Finset.range 255) ((Finset.univ : Finset Byte).erase 0) := fun n hn =>
    Finset.mem_erase.mpr ⟨gfPowTwo_ne_zero (Finset.mem_range.mp hn), Finset.mem_univ _⟩
  have hinj : Set.InjOn gfPowTwo (Finset.range 255) := by
    rw [Finset.coe_range]
    exact gfPowTwo_injOn
  have hcard : ((Finset.univ : Finset Byte).erase 0).card = 255 := by
    simp [Finset.card_erase_of_mem, ← FinEnum.card_eq_fintypeCard]
  have hcover := Finset.surjOn_of_injOn_of_card_le _ hmaps hinj (by rw [hcard, Finset.card_range])
  obtain ⟨n, hn, rfl⟩ := hcover (Finset.mem_erase.mpr ⟨ha, Finset.mem_univ a⟩)
  exact ⟨n, Finset.mem_range.mp hn, rfl⟩

/-- R83: a nonzero byte is a power of 0x02, so it has an inverse, and by the ring laws no other. -/
theorem existsUnique_inverse {a : Byte} (ha : a ≠ 0) : ∃! b, gfMul a b = 1 := by
  obtain ⟨n, hn, rfl⟩ := exists_gfPowTwo ha
  refine ⟨gfPowTwo (255 - n), gfMul_gfPowTwo_complement hn, fun b hb => ?_⟩
  calc b
    _ = gfMul (gfMul (gfPowTwo n) (gfPowTwo (255 - n))) b := by rw [gfMul_gfPowTwo_complement hn, gfMul_one_left]
    _ = gfMul (gfPowTwo (255 - n)) (gfMul (gfPowTwo n) b) := by rw [gfMul_comm (gfPowTwo n), gfMul_assoc]
    _ = gfPowTwo (255 - n) := by rw [hb, gfMul_one_right]

/-! ### The command -/

/-- R85: `GFMUL` on a core whose tables are ready and true. -/
theorem exec_gfmul {s : State} (a b : Byte) (hold : TablesHold s) (h : TablesReady s) :
    exec (.gfmul a b) s = .next (s.setGr (gfMul a b)) := by
  obtain ⟨hf, ht⟩ := h
  have hw : (Instr.gfmul a b).wellFormed = true := rfl
  rw [exec_ready hf hw (fun _ => ht) (fun hn => nomatch hn), effectOf, mulAt_of_ready hold ht]

end Sys2Proof.Machine
end

section
/-! SUPPORT. The statements about the multiplication of GF(2^8). -/

namespace Sys2Proof.Machine

/-- Settles O33: the product commutes with doubling, bytes are sums of doublings of 1, and 1 returns to itself after 255
doublings and no sooner. -/
theorem fieldMultiplicationLaws : Obligations.FieldMultiplicationLaws := by
  unfold Obligations.FieldMultiplicationLaws
  refine ⟨fun a => ⟨gfMul_zero_right a, gfMul_zero_left a⟩, gfMul_comm, gfMul_one_right, gfMul_xor_right, gfMul_assoc,
    fun _ => existsUnique_inverse, ?inverseOfTwo, fun b hb => ?below, fun b hb => ?reduced, ?powers, gfPowTwo_order,
    fun _ => gfPowTwo_ne_one⟩
  case inverseOfTwo => decide
  case below => rw [gfMul_two, gfDouble_of_lt hb]
  case reduced => rw [gfMul_two, gfDouble_of_ge hb]
  case powers => decide +kernel

/-- Settles O30: the effect is a write of the product read from `MUL` to `GR`. -/
theorem gfmulReadsTheFieldProduct : Obligations.GfmulReadsTheFieldProduct := by
  unfold Obligations.GfmulReadsTheFieldProduct
  intro a b s hold hready
  exact ⟨_, exec_gfmul a b hold hready, rfl, onlyGrChanged_setGr s _⟩

end Sys2Proof.Machine
end

section
/-! SUPPORT. The laws of the S-box and the substitutions (spec/42_sbox.md R92, R93): the two tables undo each other, and
so do the transforms that apply them to every byte; and the commands that read the tables. -/

namespace Sys2Proof.Machine

/-! ### The tables -/

/-- R92: `PI_INV` undoes `PI`, read off at the 256 bytes. -/
theorem sboxInv_leftInverse_sbox : Function.LeftInverse sboxInv sbox := by
  unfold Function.LeftInverse
  decide +kernel

@[simp] theorem sboxInv_sbox (v : Byte) : sboxInv (sbox v) = v := sboxInv_leftInverse_sbox v

/-- R92: `PI` is a permutation: its values differ, and there are as many of them as there are bytes. -/
theorem sbox_bijective : Function.Bijective sbox :=
  Finite.injective_iff_bijective.mp sboxInv_leftInverse_sbox.injective

@[simp] theorem sbox_sboxInv (v : Byte) : sbox (sboxInv v) = v :=
  sboxInv_leftInverse_sbox.rightInverse_of_surjective sbox_bijective.surjective v

/-- R92: `PI` has no fixed point, read off at the 256 bytes. -/
theorem sbox_ne_self : ∀ v, sbox v ≠ v := by decide +kernel

/-! ### The transforms -/

@[simp] theorem transSInv_transS (x : Block) : transSInv (transS x) = x := block_ext fun i => by simp

@[simp] theorem transS_transSInv (x : Block) : transS (transSInv x) = x := block_ext fun i => by simp

/-! ### The commands -/

/-- R177: a command that needs neither flag takes effect on every core that has not faulted. -/
theorem exec_unconditional {i : Instr} {s : State} (h : s.faulted = false) (hw : i.wellFormed = true)
    (ht : needsTready i = false) (hk : needsKvalid i = false) : exec i s = .next (effectOf i s) :=
  exec_ready h hw (by simp [ht]) (by simp [hk])

/-- R94: `PI` on a core that has not faulted. -/
theorem exec_pi {s : State} (v : Byte) (h : s.faulted = false) : exec (.pi v) s = .next (s.setGr (sbox v)) :=
  exec_unconditional h rfl rfl rfl

/-- R95: `PIINV` on a core that has not faulted. -/
theorem exec_piinv {s : State} (v : Byte) (h : s.faulted = false) : exec (.piinv v) s = .next (s.setGr (sboxInv v)) :=
  exec_unconditional h rfl rfl rfl

/-- R96: `S` on a core that has not faulted. -/
theorem exec_s {s : State} (rd rs : Reg) (h : s.faulted = false) :
    exec (.s rd rs) s = .next (s.setBlock rd (transS (s.block rs))) :=
  exec_unconditional h rfl rfl rfl

/-- R97: `SINV` on a core that has not faulted. -/
theorem exec_sinv {s : State} (rd rs : Reg) (h : s.faulted = false) :
    exec (.sinv rd rs) s = .next (s.setBlock rd (transSInv (s.block rs))) :=
  exec_unconditional h rfl rfl rfl

end Sys2Proof.Machine
end

section
/-! SUPPORT. The statements about the S-box and the substitutions. -/

namespace Sys2Proof.Machine

/-- Settles O34: `PI_INV` undoes the injection `PI` of a finite set, so it is a two-sided inverse; and no reset leaves a
fault that would keep the two commands from executing. -/
theorem sboxTablesAreInversePermutations : Obligations.SboxTablesAreInversePermutations := by
  unfold Obligations.SboxTablesAreInversePermutations
  refine ⟨sboxInv_sbox, sbox_sboxInv, sbox_ne_self, by decide, by decide, by decide, by decide, fun v d s => ?_⟩
  have hf : (applyReset d s).faulted = false := applyReset_faulted d s
  exact ⟨exec_pi v hf, exec_piinv v hf⟩

/-- Settles O35: the tables undo each other at every byte; and `S(ZERO)`, sixteen times 0xfc, is not `ZERO`. -/
theorem substitutionsAreBytewiseAndInverse : Obligations.SubstitutionsAreBytewiseAndInverse := by
  unfold Obligations.SubstitutionsAreBytewiseAndInverse
  have hzero : transS zeroBlock = blockOfInt 0xfcfcfcfcfcfcfcfcfcfcfcfcfcfcfcfc := by decide +kernel
  refine ⟨fun x i => ⟨transS_getElem x i i.isLt, transSInv_getElem x i i.isLt⟩, transSInv_transS, transS_transSInv,
    hzero, ?_⟩
  rw [hzero]
  decide

/-- Settles O31: the effects are writes to `GR`, and `PI` takes the byte of `PI_INV` back to the operand. -/
theorem sboxCommandsReadTheTables : Obligations.SboxCommandsReadTheTables := by
  unfold Obligations.SboxCommandsReadTheTables
  intro v s hf
  exact ⟨⟨_, exec_pi v hf, rfl, onlyGrChanged_setGr s _⟩, ⟨_, exec_piinv v hf, sbox_sboxInv v, onlyGrChanged_setGr s _⟩⟩

/-- Settles O32: the register is written with the substituted block. -/
theorem substitutionCommandsActBytewise : Obligations.SubstitutionCommandsActBytewise := by
  unfold Obligations.SubstitutionCommandsActBytewise
  intro rd rs s hf
  refine ⟨⟨_, exec_s rd rs hf, fun k => ?_, onlyBlockChanged_setBlock s rd _⟩,
    ⟨_, exec_sinv rd rs hf, fun k => ?_, onlyBlockChanged_setBlock s rd _⟩⟩
  · rw [block_setBlock_same]
    exact transS_getElem _ k k.isLt
  · rw [block_setBlock_same]
    exact transSInv_getElem _ k k.isLt

end Sys2Proof.Machine
end

section
/-! SUPPORT. The laws of the diffusion layer (spec/43_diffusion.md R101 to R109): R and R_inv move every byte but one and
compute that one from the feedback; they undo each other and are linear, and so are L and L_inv, which iterate them; and
the commands that apply the four functions. -/

namespace Sys2Proof.Machine

open Function

/-! ### The feedback -/

/-- A block with byte 15 replaced differs from the old block in that byte alone. -/
theorem set_last_eq_xorBlock (x : Block) (c : Byte) : x.set 15 c = xorBlock x (unitBlock 15 (x[15] ^^^ c)) := by
  apply block_ext
  intro i
  by_cases hi : i.val = 15
  · simp [hi]
  · simp [hi, Ne.symm hi]

/-- R101: `TV[15]` = 1, so the feedback changes by as much as byte 15 does. -/
theorem ell_set_last (x : Block) (c : Byte) : ell gfMul (x.set 15 c) = ell gfMul x ^^^ (x[15] ^^^ c) := by
  rw [set_last_eq_xorBlock, ell_xor, ell_unitBlock_last]

/-- R103: once byte 15 is replaced by the feedback, the feedback is the old byte 15; so R_inv recovers it. -/
theorem ell_set_last_ell (x : Block) : ell gfMul (x.set 15 (ell gfMul x)) = x[15] := by
  rw [ell_set_last, BitVec.xor_comm, BitVec.xor_assoc, BitVec.xor_self, BitVec.xor_zero]

/-! ### The bytes of R_inv -/

@[simp] theorem rotateDown_getElem (y : Block) (j : Nat) (h : j < 15) : (rotateDown y)[j] = y[j + 1] := by
  simp [rotateDown, h]

@[simp] theorem rotateDown_getElem_last (y : Block) : (rotateDown y)[15] = y[0] := by
  simp [rotateDown]

@[simp] theorem stepRInv_getElem (mul : Byte → Byte → Byte) (y : Block) (j : Nat) (h : j < 15) :
    (stepRInv mul y)[j] = y[j + 1] := by
  have hj : 15 ≠ j := by omega
  simp [stepRInv, h, hj]

@[simp] theorem stepRInv_getElem_last (mul : Byte → Byte → Byte) (y : Block) :
    (stepRInv mul y)[15] = ell mul (rotateDown y) := by
  simp [stepRInv]

/-- R103: the feedback of the shifted block, in the bytes of the block itself. -/
theorem ell_rotateDown (mul : Byte → Byte → Byte) (y : Block) :
    ell mul (rotateDown y) = xorSum fun i => mul tv[i] (if h : i.val < 15 then y[i.val + 1] else y[0]) := by
  simp [ell, rotateDown]

/-- Two blocks are equal when they agree in byte 0 and in the bytes that R shifts. -/
theorem block_ext_zero_succ {x y : Block} (h0 : x[0] = y[0]) (hs : ∀ (i : Nat) (_ : i < 15), x[i + 1] = y[i + 1]) :
    x = y := by
  apply Vector.ext
  rintro (_ | i) hi
  · exact h0
  · exact hs i (by omega)

/-- Two blocks are equal when they agree in the bytes that R_inv shifts and in byte 15. -/
theorem block_ext_init_last {x y : Block} (hs : ∀ (j : Nat) (_ : j < 15), x[j] = y[j]) (hl : x[15] = y[15]) : x = y := by
  apply Vector.ext
  intro j hj
  rcases Nat.lt_succ_iff_lt_or_eq.mp hj with h | rfl
  · exact hs j h
  · exact hl

/-! ### R and R_inv undo each other -/

/-- R102, R103: the shift of R_inv brings every byte back, and the feedback of R to the place of byte 15. -/
theorem rotateDown_stepR (mul : Byte → Byte → Byte) (x : Block) : rotateDown (stepR mul x) = x.set 15 (ell mul x) := by
  refine block_ext_init_last (fun j h => ?_) ?_
  · have hj : 15 ≠ j := by omega
    simp [h, hj]
  · simp

@[simp] theorem stepRInv_stepR (x : Block) : stepRInv gfMul (stepR gfMul x) = x := by
  refine block_ext_init_last (fun j h => ?_) ?_
  · rw [stepRInv_getElem _ _ _ h, stepR_succ]
  · rw [stepRInv_getElem_last, rotateDown_stepR, ell_set_last_ell]

@[simp] theorem stepR_stepRInv (y : Block) : stepR gfMul (stepRInv gfMul y) = y := by
  refine block_ext_zero_succ ?_ fun i h => ?_
  · rw [stepR_zero, stepRInv, ell_set_last_ell, rotateDown_getElem_last]
  · rw [stepR_succ, stepRInv_getElem _ _ _ h]

/-! ### R and R_inv are linear -/

theorem stepR_xor (a b : Block) : stepR gfMul (xorBlock a b) = xorBlock (stepR gfMul a) (stepR gfMul b) := by
  refine block_ext_zero_succ ?_ fun i h => ?_
  · simp [ell_xor]
  · simp

theorem rotateDown_xor (a b : Block) : rotateDown (xorBlock a b) = xorBlock (rotateDown a) (rotateDown b) := by
  refine block_ext_init_last (fun j h => ?_) ?_
  · simp [h]
  · simp

theorem stepRInv_xor (a b : Block) :
    stepRInv gfMul (xorBlock a b) = xorBlock (stepRInv gfMul a) (stepRInv gfMul b) := by
  refine block_ext_init_last (fun j h => ?_) ?_
  · simp [h]
  · simp [rotateDown_xor, ell_xor]

/-- R105(c): a linear function takes `ZERO` to `ZERO`. -/
theorem map_zeroBlock_of_xor {f : Block → Block} (hf : Semiconj₂ f xorBlock xorBlock) : f zeroBlock = zeroBlock := by
  have h := hf.eq zeroBlock zeroBlock
  rwa [xorBlock_self, xorBlock_self] at h

/-! ### L and L_inv -/

/-- R104: L is the 16th iterate of R. -/
theorem transL_eq_iterate (mul : Byte → Byte → Byte) : transL mul = (stepR mul)^[16] := rfl

/-- R104: L_inv is the 16th iterate of R_inv. -/
theorem transLInv_eq_iterate (mul : Byte → Byte → Byte) : transLInv mul = (stepRInv mul)^[16] := rfl

@[simp] theorem transLInv_transL (x : Block) : transLInv gfMul (transL gfMul x) = x :=
  LeftInverse.iterate stepRInv_stepR 16 x

@[simp] theorem transL_transLInv (x : Block) : transL gfMul (transLInv gfMul x) = x :=
  LeftInverse.iterate stepR_stepRInv 16 x

theorem transL_xor (a b : Block) : transL gfMul (xorBlock a b) = xorBlock (transL gfMul a) (transL gfMul b) :=
  Semiconj₂.iterate stepR_xor 16 a b

theorem transLInv_xor (a b : Block) :
    transLInv gfMul (xorBlock a b) = xorBlock (transLInv gfMul a) (transLInv gfMul b) :=
  Semiconj₂.iterate stepRInv_xor 16 a b

@[simp] theorem stepR_zeroBlock : stepR gfMul zeroBlock = zeroBlock := map_zeroBlock_of_xor stepR_xor

@[simp] theorem transL_zeroBlock : transL gfMul zeroBlock = zeroBlock := map_zeroBlock_of_xor transL_xor

@[simp] theorem transLInv_zeroBlock : transLInv gfMul zeroBlock = zeroBlock := map_zeroBlock_of_xor transLInv_xor

/-! ### The commands -/

/-- R177, R178: a command that needs the tables and no key takes effect on a core whose tables are ready. -/
theorem exec_tablesReady {i : Instr} {s : State} (h : TablesReady s) (hw : i.wellFormed = true)
    (hk : needsKvalid i = false) : exec i s = .next (effectOf i s) := by
  obtain ⟨hf, ht⟩ := h
  exact exec_ready hf hw (fun _ => ht) (by simp [hk])

section
variable {s : State} (rd rs : Reg) (hold : TablesHold s) (h : TablesReady s)
include hold h

/-- R106: `R` on a core whose tables are ready and true. -/
theorem exec_r : exec (.r rd rs) s = .next (s.setBlock rd (stepR gfMul (s.block rs))) := by
  rw [exec_tablesReady h rfl rfl, effectOf, mulAt_of_ready hold h.2]

/-- R107: `RINV` on a core whose tables are ready and true. -/
theorem exec_rinv : exec (.rinv rd rs) s = .next (s.setBlock rd (stepRInv gfMul (s.block rs))) := by
  rw [exec_tablesReady h rfl rfl, effectOf, mulAt_of_ready hold h.2]

/-- R108: `L` on a core whose tables are ready and true. -/
theorem exec_l : exec (.l rd rs) s = .next (s.setBlock rd (transL gfMul (s.block rs))) := by
  rw [exec_tablesReady h rfl rfl, effectOf, mulAt_of_ready hold h.2]

/-- R109: `LINV` on a core whose tables are ready and true. -/
theorem exec_linv : exec (.linv rd rs) s = .next (s.setBlock rd (transLInv gfMul (s.block rs))) := by
  rw [exec_tablesReady h rfl rfl, effectOf, mulAt_of_ready hold h.2]

end

end Sys2Proof.Machine
end

section
/-! SUPPORT. The statements about the diffusion layer. -/

namespace Sys2Proof.Machine

/-- Settles O36: the bytes of the written register are those of one step, R or R_inv, of the operand. -/
theorem stepCommandsShiftAndFeedBack : Obligations.StepCommandsShiftAndFeedBack := by
  unfold Obligations.StepCommandsShiftAndFeedBack
  intro rd rs s hold hready
  refine ⟨⟨_, exec_r rd rs hold hready, ?rZero, fun i h => ?rSucc, onlyBlockChanged_setBlock s rd _⟩,
    ⟨_, exec_rinv rd rs hold hready, fun j h => ?rinvShift, ?rinvLast, onlyBlockChanged_setBlock s rd _⟩⟩
  case rZero => rw [block_setBlock_same, stepR_zero, ell]
  case rSucc => rw [block_setBlock_same, stepR_succ]
  case rinvShift => rw [block_setBlock_same, stepRInv_getElem _ _ _ h]
  case rinvLast => rw [block_setBlock_same, stepRInv_getElem_last, ell_rotateDown]

/-- Settles O37: L and L_inv are the sixteenth iterates of the two steps. -/
theorem diffusionCommandsApplySixteenSteps : Obligations.DiffusionCommandsApplySixteenSteps := by
  unfold Obligations.DiffusionCommandsApplySixteenSteps
  intro rd rs s hold hready
  refine ⟨⟨_, exec_l rd rs hold hready, ?_, onlyBlockChanged_setBlock s rd _⟩,
    ⟨_, exec_linv rd rs hold hready, ?_, onlyBlockChanged_setBlock s rd _⟩⟩
  · rw [block_setBlock_same, transL_eq_iterate]
  · rw [block_setBlock_same, transLInv_eq_iterate]

/-- Settles O38: the steps undo each other and are linear, and both properties pass to their iterates; L of the rule's two
blocks is computed. -/
theorem diffusionIsLinearAndInvertible : Obligations.DiffusionIsLinearAndInvertible := by
  unfold Obligations.DiffusionIsLinearAndInvertible
  refine ⟨transLInv_transL, transL_transLInv, stepRInv_stepR, stepR_stepRInv, stepR_xor, stepRInv_xor, transL_xor,
    transLInv_xor, stepR_zeroBlock, transL_zeroBlock, transLInv_zeroBlock, ?once, ?twice⟩
  case once => rw [transL_eq_bytes]; decide +kernel
  case twice => rw [transL_eq_bytes]; decide +kernel

end Sys2Proof.Machine
end

section
/-! SUPPORT. The laws of `XORSUM` and of the matrices over GF(2^8) (spec/44_table_generator.md R122 to R124): sums with one
nonzero term, sums of sums, and the product of two matrices as the composition of the functions they stand for. -/

namespace Sys2Proof.Machine

open Statements Function

/-! ### `XORSUM` -/

/-- A sum with one nonzero term, over a list, the form in which it goes by induction: the term counts if the list holds
its position. -/
theorem foldr_xor_single {l : List Pos} (hl : l.Nodup) {f : Pos → Byte} (i : Pos) (h : ∀ j, j ≠ i → f j = 0) :
    l.foldr (fun j acc => f j ^^^ acc) 0 = if i ∈ l then f i else 0 := by
  induction l with
  | nil => rfl
  | cons j l ih =>
    obtain ⟨hj, hl⟩ := List.nodup_cons.mp hl
    rw [List.foldr_cons, ih hl]
    by_cases hji : j = i
    · subst hji; simp [hj]
    · simp [h j hji, Ne.symm hji]

/-- `XORSUM` of terms that are zero but for one is that term. -/
theorem xorSum_eq_single {f : Pos → Byte} (i : Pos) (h : ∀ j, j ≠ i → f j = 0) : xorSum f = f i :=
  (foldr_xor_single (List.nodup_finRange 16) i h).trans (if_pos (List.mem_finRange i))

/-- An additive function of bytes may be applied to the terms of an `XORSUM`. -/
theorem map_xorSum {g : Byte → Byte} (hzero : g 0 = 0) (hxor : ∀ a b, g (a ^^^ b) = g a ^^^ g b) (f : Pos → Byte) :
    g (xorSum f) = xorSum fun i => g (f i) := by
  unfold xorSum
  induction List.finRange 16 with
  | nil => exact hzero
  | cons i l ih => rw [List.foldr_cons, List.foldr_cons, hxor, ih]

/-- The sum over a list of `XORSUM`s is the `XORSUM` of the sums over the list. -/
theorem foldr_xorSum (l : List Pos) (f : Pos → Pos → Byte) :
    l.foldr (fun i acc => (xorSum fun j => f i j) ^^^ acc) 0 = xorSum fun j => l.foldr (fun i acc => f i j ^^^ acc) 0 := by
  induction l with
  | nil => exact (xorSum_eq_zero fun _ => rfl).symm
  | cons i l ih => simp only [List.foldr_cons, ih, xorSum_xor]

/-- Two `XORSUM`s, one inside the other, may change places. -/
theorem xorSum_comm (f : Pos → Pos → Byte) :
    (xorSum fun i => xorSum fun j => f i j) = xorSum fun j => xorSum fun i => f i j :=
  foldr_xorSum (List.finRange 16) f

@[simp] theorem gfMul_one_left_ofNat (a : Byte) : gfMul 1#8 a = a := gfMul_one_left a

theorem gfMul_xorSum_left (f : Pos → Byte) (b : Byte) : gfMul (xorSum f) b = xorSum fun i => gfMul (f i) b :=
  map_xorSum (g := fun a => gfMul a b) (gfMul_zero_left b) (fun a a' => gfMul_xor_left a a' b) f

theorem gfMul_xorSum_right (a : Byte) (f : Pos → Byte) : gfMul a (xorSum f) = xorSum fun i => gfMul a (f i) :=
  map_xorSum (gfMul_zero_right a) (gfMul_xor_right a) f

/-! ### A matrix as a function of blocks -/

/-- R122: a matrix takes the unit block at `i` to the multiple of its column `i`. -/
theorem matVec_unitBlock (A : Matrix) (i : Pos) (c : Byte) (k : Nat) (h : k < 16) :
    (matVec gfMul A (unitBlock i c))[k] = gfMul A[k][i] c := by
  rw [matVec_getElem _ _ _ _ h, xorSum_eq_single i fun j hj => ?_]
  · simp
  · simp [Fin.val_ne_of_ne hj]

/-- Column `c` of a matrix. -/
def column (A : Matrix) (c : Pos) : Block := Vector.ofFn fun r : Pos => A[r][c]

@[simp] theorem column_getElem (A : Matrix) (c : Pos) (r : Nat) (h : r < 16) : (column A c)[r] = A[r][c] := by
  simp [column]

/-- Two matrices that agree in every column are equal. -/
theorem matrix_ext {A B : Matrix} (h : ∀ c, column A c = column B c) : A = B := by
  apply Vector.ext
  intro r hr
  refine block_ext fun c => ?_
  calc A[r][c]
    _ = (column A c)[r] := (column_getElem A c r hr).symm
    _ = (column B c)[r] := by rw [h c]
    _ = B[r][c] := column_getElem B c r hr

/-- R122: a matrix takes the unit block at `c` to its column `c`. -/
theorem matVec_unitBlock_one (A : Matrix) (c : Pos) : matVec gfMul A (unitBlock c 1) = column A c := by
  apply block_ext
  intro r
  rw [Fin.getElem_fin, Fin.getElem_fin, matVec_unitBlock, gfMul_one_right, column_getElem]

/-- R124: the product of two matrices is the composition of their functions. -/
theorem matVec_matMul (A B : Matrix) (x : Block) :
    matVec gfMul (matMul A B) x = matVec gfMul A (matVec gfMul B x) := by
  apply block_ext
  intro r
  calc (matVec gfMul (matMul A B) x)[r]
    _ = xorSum fun c => xorSum fun k => gfMul A[r][k] (gfMul B[k][c] x[c]) := by
      simp [matMul, gfMul_xorSum_left, gfMul_assoc]
    _ = xorSum fun k => xorSum fun c => gfMul A[r][k] (gfMul B[k][c] x[c]) := xorSum_comm _
    _ = (matVec gfMul A (matVec gfMul B x))[r] := by simp [gfMul_xorSum_right]

/-- R124: `n` squarings give the matrix of the `2^n`-th iterate. -/
theorem matVec_iterate_square (n : Nat) (A : Matrix) :
    matVec gfMul (iterate (fun X => matMul X X) n A) = (matVec gfMul A)^[2 ^ n] := by
  induction n generalizing A with
  | zero => rfl
  | succ n ih =>
    have hsquare : matVec gfMul (matMul A A) = (matVec gfMul A)^[2] := funext (matVec_matMul A A)
    rw [iterate, ih, hsquare, ← iterate_mul, ← pow_succ']

theorem matVec_pow16 (A : Matrix) : matVec gfMul (pow16 A) = (matVec gfMul A)^[16] := matVec_iterate_square 4 A

/-- R125: the identity matrix keeps every block. -/
theorem matVec_identityMatrix (x : Block) : matVec gfMul identityMatrix x = x := by
  apply block_ext
  intro r
  calc (matVec gfMul identityMatrix x)[r]
    _ = xorSum fun c => gfMul (if r = c then 1 else 0) x[c] := by simp [identityMatrix]
    _ = gfMul (if r = r then 1 else 0) x[r] := xorSum_eq_single r fun c hc => by simp [Ne.symm hc]
    _ = x[r] := by simp

end Sys2Proof.Machine
end

section
/-! SUPPORT. The laws of the table generator (spec/44_table_generator.md R122 to R127): its matrices are those of L and
L_inv and the listed ones, an entry of a fused table is its matrix applied to a unit block; and the commands that run the
generator or read what it writes (R128 to R135, R143). -/

namespace Sys2Proof.Machine

open Statements

/-! ### The matrices of R and R_inv -/

/-- R122: `M` is the matrix of R. -/
theorem matVec_matR (x : Block) : matVec gfMul matR x = stepR gfMul x := by
  refine block_ext_zero_succ ?_ fun i h => ?_
  · simp [matR, ell]
  · rw [stepR_succ, matVec_getElem, xorSum_eq_single ⟨i, by omega⟩ fun c hc => ?_]
    · simp [matR]
    · have hne : c.val ≠ i := fun he => hc (Fin.ext he)
      simp [matR, hne]

/-- R123: `M_INV` is the matrix of R_inv; its last row holds `TV`, turned by one place like the bytes it multiplies. -/
theorem matVec_matRInv (x : Block) : matVec gfMul matRInv x = stepRInv gfMul x := by
  refine block_ext_init_last (fun j h => ?_) ?_
  · rw [stepRInv_getElem _ _ _ h, matVec_getElem, xorSum_eq_single ⟨j + 1, by omega⟩ fun c hc => ?_]
    · simp [matRInv, h]
    · have hne : c.val ≠ j + 1 := fun he => hc (Fin.ext he)
      simp [matRInv, h, hne]
  · rw [stepRInv_getElem_last, ell_rotateDown, matVec_getElem, xorSum_expand, xorSum_expand]
    simp [matRInv]
    ac_rfl

/-- R124: `LMAT` is the matrix of L. -/
theorem matVec_pow16_matR : matVec gfMul (pow16 matR) = transL gfMul := by
  rw [matVec_pow16, funext matVec_matR, transL_eq_iterate]

/-- R124: `LINV` is the matrix of L_inv. -/
theorem matVec_pow16_matRInv : matVec gfMul (pow16 matRInv) = transLInv gfMul := by
  rw [matVec_pow16, funext matVec_matRInv, transLInv_eq_iterate]

/-! ### The listed matrices -/

/-- R125: the columns of the listed `LMAT` are L of the unit blocks, read off at the sixteen columns. -/
theorem transL_unitBlock_one (c : Pos) : transL gfMul (unitBlock c 1) = column listedLmat c := by
  rw [transL_eq_bytes]
  revert c
  decide +kernel

/-- R125: the columns of the listed `LINV` are L_inv of the unit blocks, read off at the sixteen columns. -/
theorem transLInv_unitBlock_one (c : Pos) : transLInv gfMul (unitBlock c 1) = column listedLinv c := by
  rw [transLInv_eq_bytes]
  revert c
  decide +kernel

/-- R124, R125: the four squarings of `M` give the listed `LMAT`. -/
theorem pow16_matR : pow16 matR = listedLmat :=
  matrix_ext fun c => by rw [← matVec_unitBlock_one, matVec_pow16_matR, transL_unitBlock_one]

/-- R124, R125: the four squarings of `M_INV` give the listed `LINV`. -/
theorem pow16_matRInv : pow16 matRInv = listedLinv :=
  matrix_ext fun c => by rw [← matVec_unitBlock_one, matVec_pow16_matRInv, transLInv_unitBlock_one]

theorem generateTables_lmat : generateTables.lmat = listedLmat := pow16_matR

theorem generateTables_linv : generateTables.linv = listedLinv := pow16_matRInv

/-- R124, R125: the listed `LMAT` is the matrix of L. -/
theorem matVec_listedLmat : matVec gfMul listedLmat = transL gfMul := by
  rw [← pow16_matR, matVec_pow16_matR]

/-- R124, R125: the listed `LINV` is the matrix of L_inv. -/
theorem matVec_listedLinv : matVec gfMul listedLinv = transLInv gfMul := by
  rw [← pow16_matRInv, matVec_pow16_matRInv]

/-- R125: the product of the listed matrices is the identity, because L undoes L_inv. -/
theorem matMul_listedLmat_listedLinv : matMul listedLmat listedLinv = identityMatrix :=
  matrix_ext fun c => by
    rw [← matVec_unitBlock_one, ← matVec_unitBlock_one, matVec_matMul, matVec_listedLmat, matVec_listedLinv,
      transL_transLInv, matVec_identityMatrix]

/-- R125: the listed `LINV` is the listed `LMAT` turned end for end, read off at the 256 positions. -/
theorem listedLinv_eq_reversed : ∀ k i : Pos, listedLinv[k][i] = listedLmat[15 - k.val][15 - i.val] := by
  decide +kernel

/-! ### The fused tables -/

/-- R126, R127: an entry of a fused table is the matrix applied to the substituted unit block. -/
theorem fusedRead_fuse_eq_matVec (f : Byte → Byte) (A : Matrix) (i : Pos) (v : Byte) :
    fusedRead (fuse f A) i v = matVec gfMul A (unitBlock i (f v)) := by
  apply block_ext
  intro k
  rw [Fin.getElem_fin, Fin.getElem_fin, fusedRead_fuse, matVec_unitBlock, gfMul_comm]

/-- R140: a fused pass is the matrix applied to the substituted block. -/
theorem applyLS_fuse_eq_matVec (f : Byte → Byte) (A : Matrix) (x : Block) :
    applyLS (fuse f A) x = matVec gfMul A (x.map f) := by
  rw [applyLS_fuse]
  apply block_ext
  intro k
  simp [gfMul_comm]

theorem generateTables_tEnc : generateTables.tEnc = fuse sbox listedLmat := by rw [← pow16_matR]; rfl

theorem generateTables_tDec : generateTables.tDec = fuse sboxInv listedLinv := by rw [← pow16_matRInv]; rfl

theorem generateTables_tDinv : generateTables.tDinv = fuse (fun v => v) listedLinv := by rw [← pow16_matRInv]; rfl

/-- R127: the "fundamental correctness invariant" of `T_ENC`. -/
theorem fusedRead_tEnc (i : Pos) (v : Byte) :
    fusedRead generateTables.tEnc i v = transL gfMul (unitBlock i (sbox v)) := by
  rw [generateTables_tEnc, fusedRead_fuse_eq_matVec, matVec_listedLmat]

/-- R127: the same of `T_DEC`. -/
theorem fusedRead_tDec (i : Pos) (v : Byte) :
    fusedRead generateTables.tDec i v = transLInv gfMul (unitBlock i (sboxInv v)) := by
  rw [generateTables_tDec, fusedRead_fuse_eq_matVec, matVec_listedLinv]

/-- R127: the same of `T_DINV`. -/
theorem fusedRead_tDinv (i : Pos) (v : Byte) :
    fusedRead generateTables.tDinv i v = transLInv gfMul (unitBlock i v) := by
  rw [generateTables_tDinv, fusedRead_fuse_eq_matVec, matVec_listedLinv]

/-- R140: the pass through `T_DINV` is L_inv. -/
theorem applyLS_tDinv (x : Block) : applyLS generateTables.tDinv x = transLInv gfMul x := by
  rw [generateTables_tDinv, applyLS_fuse_eq_matVec, matVec_listedLinv, Vector.map_id']

/-! ### The commands -/

/-- R128: `INIT` on a core that has not faulted. -/
theorem exec_init {s : State} (h : s.faulted = false) :
    exec .init s = .next { s with tables := generateTables, status := setTready s.status } :=
  exec_unconditional h rfl rfl rfl

section
variable {s : State} (hold : TablesHold s) (h : TablesReady s)
include hold h

/-- R129: `MATL` on a core whose tables are ready and true. -/
theorem exec_matl (rd rs : Reg) : exec (.matl rd rs) s = .next (s.setBlock rd (transL gfMul (s.block rs))) := by
  rw [exec_tablesReady h rfl rfl, effectOf, mulAt_of_ready hold h.2, hold h.2, generateTables_lmat,
    matVec_listedLmat]

/-- R130: `MATLI` on a core whose tables are ready and true. -/
theorem exec_matli (rd rs : Reg) : exec (.matli rd rs) s = .next (s.setBlock rd (transLInv gfMul (s.block rs))) := by
  rw [exec_tablesReady h rfl rfl, effectOf, mulAt_of_ready hold h.2, hold h.2, generateTables_linv,
    matVec_listedLinv]

/-- R143: `LDINV` on a core whose tables are ready and true. -/
theorem exec_ldinv (rd rs : Reg) : exec (.ldinv rd rs) s = .next (s.setBlock rd (transLInv gfMul (s.block rs))) := by
  rw [exec_tablesReady h rfl rfl, effectOf, hold h.2, applyLS_tDinv]

/-- R131: `GETL` on a core whose tables are ready and true. -/
theorem exec_getl (k i : Pos) : exec (.getl k i) s = .next (s.setGr listedLmat[k][i]) := by
  rw [exec_tablesReady h rfl rfl, effectOf, State.lmatAt, hold h.2, generateTables_lmat]

/-- R132: `GETLI` on a core whose tables are ready and true. -/
theorem exec_getli (k i : Pos) : exec (.getli k i) s = .next (s.setGr listedLinv[k][i]) := by
  rw [exec_tablesReady h rfl rfl, effectOf, State.linvAt, hold h.2, generateTables_linv]

/-- R133: `GETTE` on a core whose tables are ready and true. -/
theorem exec_gette (i : Pos) (v : Byte) (k : Pos) :
    exec (.gette i v k) s = .next (s.setGr (transL gfMul (unitBlock i (sbox v)))[k]) := by
  rw [exec_tablesReady h rfl rfl, effectOf, fusedByte, hold h.2, fusedRead_tEnc]

/-- R134: `GETTD` on a core whose tables are ready and true. -/
theorem exec_gettd (i : Pos) (v : Byte) (k : Pos) :
    exec (.gettd i v k) s = .next (s.setGr (transLInv gfMul (unitBlock i (sboxInv v)))[k]) := by
  rw [exec_tablesReady h rfl rfl, effectOf, fusedByte, hold h.2, fusedRead_tDec]

/-- R135: `GETTI` on a core whose tables are ready and true. -/
theorem exec_getti (i : Pos) (v : Byte) (k : Pos) :
    exec (.getti i v k) s = .next (s.setGr (transLInv gfMul (unitBlock i v))[k]) := by
  rw [exec_tablesReady h rfl rfl, effectOf, fusedByte, hold h.2, fusedRead_tDinv]

end

end Sys2Proof.Machine
end

section
/-! SUPPORT. The statements about the table generator and the commands that read what it writes. -/

namespace Sys2Proof.Machine

/-- Settles O39: the squarings give the matrices of L and L_inv, and the listed columns are their values at the unit
blocks; L undoes L_inv. -/
theorem generatedMatricesAreTheListedOnes : Obligations.GeneratedMatricesAreTheListedOnes := by
  unfold Obligations.GeneratedMatricesAreTheListedOnes
  exact ⟨generateTables_lmat, generateTables_linv, matMul_listedLmat_listedLinv,
    fun k i hk hi => listedLinv_eq_reversed ⟨k, hk⟩ ⟨i, hi⟩⟩

/-- Settles O40: the stored matrices and the pass through `T_DINV` are L and L_inv as functions of blocks. -/
theorem matrixAndFusedDatapathsEqualTheSteps : Obligations.MatrixAndFusedDatapathsEqualTheSteps := by
  unfold Obligations.MatrixAndFusedDatapathsEqualTheSteps
  intro rd rs s hold hready
  exact ⟨⟨_, exec_matl hold hready rd rs, exec_l rd rs hold hready, block_setBlock_same ..,
      onlyBlockChanged_setBlock s rd _⟩,
    ⟨_, exec_matli hold hready rd rs, exec_ldinv hold hready rd rs, exec_linv rd rs hold hready, block_setBlock_same ..,
      onlyBlockChanged_setBlock s rd _⟩⟩

/-- Settles O41: the effects are writes of the listed entries to `GR`. -/
theorem matrixReadbacksGiveTheListedEntries : Obligations.MatrixReadbacksGiveTheListedEntries := by
  unfold Obligations.MatrixReadbacksGiveTheListedEntries
  intro k i s hold hready
  exact ⟨⟨_, exec_getl hold hready k i, rfl, onlyGrChanged_setGr s _⟩,
    ⟨_, exec_getli hold hready k i, rfl, onlyGrChanged_setGr s _⟩⟩

/-- Settles O42: an entry of a fused table is its matrix applied to the substituted unit block. -/
theorem fusedReadbacksGiveDiffusedUnits : Obligations.FusedReadbacksGiveDiffusedUnits := by
  unfold Obligations.FusedReadbacksGiveDiffusedUnits
  intro i k v s hold hready
  exact ⟨⟨_, exec_gette hold hready i v k, rfl, onlyGrChanged_setGr s _⟩,
    ⟨_, exec_gettd hold hready i v k, rfl, onlyGrChanged_setGr s _⟩,
    ⟨_, exec_getti hold hready i v k, rfl, onlyGrChanged_setGr s _⟩⟩

/-- Settles O46: the effect writes the tables and bit 0 of `STATUS`. -/
theorem initGeneratesTheTables : Obligations.InitGeneratesTheTables := by
  unfold Obligations.InitGeneratesTheTables
  intro s hf
  refine ⟨_, exec_init hf, rfl, ?tready, ?kvalid, ?faulted⟩
  case tready => simp [State.tready]
  case kvalid => simp [State.kvalid]
  case faulted => simpa [State.faulted] using hf

end Sys2Proof.Machine
end

section
/-! SUPPORT. The laws of the fused pass (spec/45_fused_round.md R140 to R143): its bytes, its identities on the generated
tables, and the commands that run it, on any tables and on true ones. -/

namespace Sys2Proof.Machine

/-! ### The fused pass -/

/-- R140: "Byte by byte", on any table. -/
theorem applyLS_getElem (T : FusedTable) (x : Block) (k : Pos) :
    (applyLS T x)[k] = xorSum fun i => fusedByte T i x[i] k :=
  xorSumBlock_getElem _ k k.isLt

/-- R93: S applies the S-box to every byte, in the form in which the fused pass does. -/
theorem map_sbox (x : Block) : x.map sbox = transS x := block_ext fun i => by simp

/-- R93: the same of S_inv. -/
theorem map_sboxInv (x : Block) : x.map sboxInv = transSInv x := block_ext fun i => by simp

/-- R140: the pass through `T_ENC` is L after S. -/
theorem applyLS_tEnc (x : Block) : applyLS generateTables.tEnc x = transL gfMul (transS x) := by
  rw [generateTables_tEnc, applyLS_fuse_eq_matVec, matVec_listedLmat, map_sbox]

/-- R140: the pass through `T_DEC` is L_inv after S_inv. -/
theorem applyLS_tDec (x : Block) : applyLS generateTables.tDec x = transLInv gfMul (transSInv x) := by
  rw [generateTables_tDec, applyLS_fuse_eq_matVec, matVec_listedLinv, map_sboxInv]

/-! ### The commands on any tables -/

section
variable {s : State} (rd rs : Reg) (h : TablesReady s)
include h

/-- R141: `LSENC` on a core whose tables are ready, whatever they hold. -/
theorem exec_lsenc_applyLS : exec (.lsenc rd rs) s = .next (s.setBlock rd (applyLS s.tables.tEnc (s.block rs))) :=
  exec_tablesReady h rfl rfl

/-- R142: `LSDEC` on a core whose tables are ready, whatever they hold. -/
theorem exec_lsdec_applyLS : exec (.lsdec rd rs) s = .next (s.setBlock rd (applyLS s.tables.tDec (s.block rs))) :=
  exec_tablesReady h rfl rfl

/-- R143: `LDINV` on a core whose tables are ready, whatever they hold. -/
theorem exec_ldinv_applyLS : exec (.ldinv rd rs) s = .next (s.setBlock rd (applyLS s.tables.tDinv (s.block rs))) :=
  exec_tablesReady h rfl rfl

end

/-! ### The commands on true tables -/

/-- A write to a block register leaves the tables as true as they were. -/
theorem TablesHold.setBlock {s : State} (hold : TablesHold s) (r : Reg) (x : Block) : TablesHold (s.setBlock r x) := by
  simpa [TablesHold] using hold

/-- A write to a block register leaves the tables ready. -/
theorem TablesReady.setBlock {s : State} (h : TablesReady s) (r : Reg) (x : Block) : TablesReady (s.setBlock r x) := by
  simpa [TablesReady] using h

section
variable {s : State} (hold : TablesHold s) (h : TablesReady s)
include hold h

/-- R141: `LSENC` on a core whose tables are ready and true. -/
theorem exec_lsenc (rd rs : Reg) :
    exec (.lsenc rd rs) s = .next (s.setBlock rd (transL gfMul (transS (s.block rs)))) := by
  rw [exec_lsenc_applyLS rd rs h, hold h.2, applyLS_tEnc]

/-- R142: `LSDEC` on a core whose tables are ready and true. -/
theorem exec_lsdec (rd rs : Reg) :
    exec (.lsdec rd rs) s = .next (s.setBlock rd (transLInv gfMul (transSInv (s.block rs)))) := by
  rw [exec_lsdec_applyLS rd rs h, hold h.2, applyLS_tDec]

/-- R108: `L` in place on a register just written: only the block that `L` writes remains of the two writes. -/
theorem exec_l_setBlock (rd : Reg) (x : Block) :
    exec (.l rd rd) (s.setBlock rd x) = .next (s.setBlock rd (transL gfMul x)) := by
  rw [exec_l rd rd (hold.setBlock rd x) (h.setBlock rd x), block_setBlock_same, setBlock_setBlock]

/-- R109: the same of `LINV`. -/
theorem exec_linv_setBlock (rd : Reg) (x : Block) :
    exec (.linv rd rd) (s.setBlock rd x) = .next (s.setBlock rd (transLInv gfMul x)) := by
  rw [exec_linv rd rd (hold.setBlock rd x) (h.setBlock rd x), block_setBlock_same, setBlock_setBlock]

end

end Sys2Proof.Machine
end

section
/-! SUPPORT. The statements about the fused pass and its commands. -/

namespace Sys2Proof.Machine

/-- Settles O43: the register is written with the fused pass over the table as it stands. -/
theorem fusedCommandsSumTableEntries : Obligations.FusedCommandsSumTableEntries := by
  unfold Obligations.FusedCommandsSumTableEntries
  intro rd rs s hready
  refine ⟨⟨_, exec_lsenc_applyLS rd rs hready, fun k => ?lsenc, onlyBlockChanged_setBlock s rd _⟩,
    ⟨_, exec_lsdec_applyLS rd rs hready, fun k => ?lsdec, onlyBlockChanged_setBlock s rd _⟩,
    ⟨_, exec_ldinv_applyLS rd rs hready, fun k => ?ldinv, onlyBlockChanged_setBlock s rd _⟩⟩
  case lsenc => rw [block_setBlock_same, applyLS_getElem]
  case lsdec => rw [block_setBlock_same, applyLS_getElem]
  case ldinv => rw [block_setBlock_same, applyLS_getElem]

/-- Settles O44: a pass over a generated table is the matrix of L or L_inv applied to the substituted block. -/
theorem fusedPassEqualsTheDirectPath : Obligations.FusedPassEqualsTheDirectPath := by
  unfold Obligations.FusedPassEqualsTheDirectPath
  exact ⟨applyLS_getElem, fun x => ⟨applyLS_tEnc x, applyLS_tDec x, applyLS_tDinv x⟩⟩

/-- Settles O45: the substitution leaves the tables as they are, so the diffusion that follows is L or L_inv of the block
just written, which is what the fused pass gives. -/
theorem fusedCommandsEqualTheirCommandPairs : Obligations.FusedCommandsEqualTheirCommandPairs := by
  unfold Obligations.FusedCommandsEqualTheirCommandPairs
  intro rd rs s hold hready
  exact ⟨⟨_, _, exec_s rd rs hready.1, exec_l_setBlock hold hready rd _, exec_lsenc hold hready rd rs⟩,
    ⟨_, _, exec_sinv rd rs hready.1, exec_linv_setBlock hold hready rd _, exec_lsdec hold hready rd rs⟩⟩

end Sys2Proof.Machine
end

section
/-! SUPPORT. The laws of the key schedule (spec/46_key_schedule.md R150 to R156): the Feistel step and its inverse, the
expansion as one run of 32 steps, and the commands `FSTEP` and `SETKEY`. -/

namespace Sys2Proof.Machine

/-! ### The Feistel step -/

/-- R140, R151: the step on the fused pass through `T_ENC` is the step on L after S. -/
theorem feistel_tEnc (k a b : Block) :
    feistel (applyLS generateTables.tEnc) k a b = feistel (directLS gfMul) k a b := by
  rw [feistel, applyLS_tEnc, feistel, directLS]

/-- Adding a block from the left and again from the right gives back the other. -/
theorem xorBlock_cancel_left_right (a b : Block) : xorBlock (xorBlock a b) a = b := by
  rw [xorBlock_comm a b, xorBlock_cancel_right]

/-- R151: the inputs of a step from its result; `ls` need not be invertible. -/
theorem inputs_of_feistel {ls : Block → Block} {k a b a' b' : Block} (h : feistel ls k a b = (a', b')) :
    a = b' ∧ b = xorBlock a' (ls (xorBlock b' k)) := by
  obtain ⟨rfl, rfl⟩ := Prod.mk.inj h
  exact ⟨rfl, (xorBlock_cancel_left_right _ b).symm⟩

/-! ### The expansion as one run of steps -/

/-- R152: the pair after the first `n` steps from `p`, step `n + 1` with the constant `C(n + 1)`. -/
def schedulePair (p : Block × Block) : Nat → Block × Block
  | 0 => p
  | n + 1 => feistel (directLS gfMul) (roundConst gfMul (n + 1)) (schedulePair p n).1 (schedulePair p n).2

/-- The `n` steps after the first `m`, as the loop of an outer round runs them. -/
theorem foldl_feistel_schedulePair (p : Block × Block) (m n : Nat) :
    (List.range n).foldl (fun q j => feistel (directLS gfMul) (roundConst gfMul (m + (j + 1))) q.1 q.2)
      (schedulePair p m) = schedulePair p (m + n) := by
  induction n with
  | zero => rfl
  | succ n ih => rw [List.range_succ, List.foldl_concat, ih, ← Nat.add_assoc, schedulePair]

/-- R152: outer round `g + 1` carries the pair on from step `8g` to step `8(g + 1)`. -/
theorem expandGroup_schedulePair (p : Block × Block) (g : Nat) :
    expandGroup (g + 1) (schedulePair p (8 * g)) = schedulePair p (8 * (g + 1)) :=
  foldl_feistel_schedulePair p (8 * g) 8

/-- R152: the round keys are the key itself and the pairs after 8, 16, 24 and 32 steps. -/
theorem keySchedule_eq_schedulePair (k1 k2 : Block) :
    keySchedule k1 k2 = #v[k1, k2,
      (schedulePair (k1, k2) 8).1, (schedulePair (k1, k2) 8).2, (schedulePair (k1, k2) 16).1, (schedulePair (k1, k2) 16).2,
      (schedulePair (k1, k2) 24).1, (schedulePair (k1, k2) 24).2, (schedulePair (k1, k2) 32).1,
      (schedulePair (k1, k2) 32).2] := by
  have h1 : expandGroup 1 (k1, k2) = schedulePair (k1, k2) 8 := expandGroup_schedulePair (k1, k2) 0
  have h2 : expandGroup 2 (schedulePair (k1, k2) 8) = schedulePair (k1, k2) 16 := expandGroup_schedulePair (k1, k2) 1
  have h3 : expandGroup 3 (schedulePair (k1, k2) 16) = schedulePair (k1, k2) 24 := expandGroup_schedulePair (k1, k2) 2
  have h4 : expandGroup 4 (schedulePair (k1, k2) 24) = schedulePair (k1, k2) 32 := expandGroup_schedulePair (k1, k2) 3
  simp only [keySchedule, h1, h2, h3, h4]

/-- R152: round keys `2g + 1` and `2g + 2` are the pair after `8g` steps. -/
theorem keySchedule_getElem? (k1 k2 : Block) {g : Nat} (h : g ≤ 4) :
    (keySchedule k1 k2)[2 * g]? = some (schedulePair (k1, k2) (8 * g)).1 ∧
      (keySchedule k1 k2)[2 * g + 1]? = some (schedulePair (k1, k2) (8 * g)).2 := by
  rw [keySchedule_eq_schedulePair]
  interval_cases g <;> exact ⟨rfl, rfl⟩

/-! ### The commands -/

/-- R156: `FSTEP` on a core whose tables are ready and true; the values written are of the state before. -/
theorem exec_fstep {s : State} {ra rb : Reg} (hne : ra ≠ rb) (rk : Reg) (hold : TablesHold s) (h : TablesReady s) :
    exec (.fstep ra rb rk) s = .next ((s.setBlock ra
      (xorBlock (transL gfMul (transS (xorBlock (s.block ra) (s.block rk)))) (s.block rb))).setBlock rb (s.block ra)) := by
  have hw : (Instr.fstep ra rb rk).wellFormed = true := by simp [Instr.wellFormed, hne]
  rw [exec_tablesReady h hw rfl, effectOf, hold h.2, feistel_tEnc, feistel, directLS]

/-- R14: setting both flags. -/
theorem setKvalid_setTready (b : Byte) : setKvalid (setTready b) = b ||| 0x03 := by
  rw [setKvalid, setTready, BitVec.or_assoc]
  rfl

/-- R154: the tables are the generated ones after `SETKEY`, kept if they were ready and written if not. -/
theorem setkey_tables_of_hold (ra rb : Reg) {s : State} (hold : TablesHold s) :
    (effectOf (.setkey ra rb) s).tables = generateTables :=
  tablesHold_effectOf (.setkey ra rb) hold (setkey_tready ra rb s)

/-- R154: the effect of `SETKEY` on a core whose tables, if ready, are true. -/
theorem effectOf_setkey (ra rb : Reg) {s : State} (hold : TablesHold s) :
    effectOf (.setkey ra rb) s =
      { s with
        tables := generateTables
        rk := keySchedule (s.block ra) (s.block rb)
        status := s.status ||| 0x03 } := by
  rw [← setkey_tables_of_hold ra rb hold, ← setKvalid_setTready]
  rfl

end Sys2Proof.Machine
end

section
/-! SUPPORT. The statements about the key schedule and its commands. -/

namespace Sys2Proof.Machine

/-- Settles O47: the checks read no flag but `FAULT`, and the generator's tables are those that true tables hold. -/
theorem setkeyExpandsTheKey : Obligations.SetkeyExpandsTheKey := by
  unfold Obligations.SetkeyExpandsTheKey
  intro ra rb s hold hf
  obtain ⟨hrk0, hrk1⟩ := keySchedule_keeps_key (s.block ra) (s.block rb)
  obtain ⟨-, -, hfi, -⟩ := effectOf_frame (.setkey ra rb) s
  exact ⟨_, exec_unconditional hf rfl rfl rfl, effectOf_setkey ra rb hold, setkey_tready ra rb s, setkey_kvalid ra rb s,
    hfi.trans hf, hrk0, hrk1⟩

/-- Settles O49: both writes are of values of the state before, to registers that differ. -/
theorem fstepRunsOneFeistelStep : Obligations.FstepRunsOneFeistelStep := by
  unfold Obligations.FstepRunsOneFeistelStep
  intro ra rb rk s hne hold hready
  refine ⟨_, exec_fstep hne rk hold hready, ?ra, block_setBlock_same .., fun r ha hb => ?other,
    rfl, rfl, rfl, rfl, rfl, rfl, rfl⟩
  case ra => rw [block_setBlock_other _ _ hne, block_setBlock_same]
  case other => rw [block_setBlock_other _ _ hb, block_setBlock_other _ _ ha]

/-- Settles O50: the second half of the result is the first input, and adding L(S(.)) of it once more leaves the other. -/
theorem feistelStepIsInvertible : Obligations.FeistelStepIsInvertible := by
  unfold Obligations.FeistelStepIsInvertible
  exact fun k a b => ⟨rfl, feistel_tEnc k a b, fun _ _ => inputs_of_feistel⟩

/-- Settles O60: the four outer rounds are one run of 32 steps, of which every eighth pair is kept. -/
theorem setkeyRunsThe32FeistelSteps : Obligations.SetkeyRunsThe32FeistelSteps := by
  unfold Obligations.SetkeyRunsThe32FeistelSteps
  intro ra rb s hf
  exact ⟨_, schedulePair (s.block ra, s.block rb), exec_unconditional hf rfl rfl rfl, rfl, fun _ _ => rfl,
    fun _ hg => keySchedule_getElem? _ _ hg⟩

end Sys2Proof.Machine
end

section
/-! SUPPORT. The laws of the round engine (spec/47_round_engine.md R160 to R165): encryption and decryption as nine
rounds and the last key, each round and its inverse, the fused arrangement of decryption, and the commands `ENC` and `DEC`. -/

namespace Sys2Proof.Machine

open Function

/-! ### The fused pass as a function -/

/-- R160: the pass through `T_ENC` is the direct form, as functions. -/
theorem applyLS_tEnc_eq_directLS : applyLS generateTables.tEnc = directLS gfMul := funext applyLS_tEnc

/-! ### One round and the nine rounds -/

/-- R160: round `i + 1` of the nine that end with `ls`, which is `L(S(.))`: add `RK[i + 1]`, apply `ls`. -/
def encRound (ls : Block → Block) (rk : Vector Block Config.nrk) (x : Block) (i : Fin 9) : Block :=
  ls (xorBlock x (rk[i.val]'(i.isLt.trans (by decide))))

/-- R162: its inverse: L_inv, S_inv, remove `RK[i + 1]`. -/
def decRound (rk : Vector Block Config.nrk) (i : Fin 9) (x : Block) : Block :=
  xorBlock (transSInv (transLInv gfMul x)) (rk[i.val]'(i.isLt.trans (by decide)))

/-- R160: encryption is nine rounds and the addition of `RK[10]`. -/
theorem encrypt_eq_rounds (ls : Block → Block) (rk : Vector Block Config.nrk) (x : Block) :
    encrypt ls rk x = xorBlock ((List.finRange 9).foldl (encRound ls rk) x) rk[9] := rfl

/-- R162: decryption removes `RK[10]` and inverts the nine rounds, the last one first. -/
theorem decrypt_eq_rounds (rk : Vector Block Config.nrk) (y : Block) :
    decrypt gfMul rk y = (List.finRange 9).foldr (decRound rk) (xorBlock y rk[9]) := rfl

theorem decRound_encRound (rk : Vector Block Config.nrk) (i : Fin 9) (x : Block) :
    decRound rk i (encRound (directLS gfMul) rk x i) = x := by
  rw [decRound, encRound, directLS, transLInv_transL, transSInv_transS, xorBlock_cancel_right]

theorem encRound_decRound (rk : Vector Block Config.nrk) (i : Fin 9) (x : Block) :
    encRound (directLS gfMul) rk (decRound rk i x) i = x := by
  rw [encRound, decRound, directLS, xorBlock_cancel_right, transS_transSInv, transL_transLInv]

/-! ### Runs of rounds -/

/-- Steps that undo other steps undo a run of them in the opposite order. -/
theorem foldr_foldl_cancel {α β : Type} {f : β → α → β} {g : α → β → β} (h : ∀ a b, g a (f b a) = b) (l : List α)
    (b : β) : l.foldr g (l.foldl f b) = b := by
  induction l generalizing b with
  | nil => rfl
  | cons a l ih => rw [List.foldr_cons, List.foldl_cons, ih, h]

/-- The same, the run in the opposite order first. -/
theorem foldl_foldr_cancel {α β : Type} {f : β → α → β} {g : α → β → β} (h : ∀ a b, f (g a b) a = b) (l : List α)
    (b : β) : l.foldl f (l.foldr g b) = b := by
  induction l with
  | nil => rfl
  | cons a l ih => rw [List.foldr_cons, List.foldl_cons, h, ih]

/-- R160: the block after the first `n` of the nine rounds. -/
def encRounds (ls : Block → Block) (rk : Vector Block Config.nrk) (x : Block) (n : Nat) : Block :=
  ((List.finRange 9).take n).foldl (encRound ls rk) x

theorem encRounds_zero (ls : Block → Block) (rk : Vector Block Config.nrk) (x : Block) : encRounds ls rk x 0 = x := rfl

theorem encRounds_succ (ls : Block → Block) (rk : Vector Block Config.nrk) (x : Block) {n : Nat} (h : n < 9) :
    encRounds ls rk x (n + 1) = encRound ls rk (encRounds ls rk x n) ⟨n, h⟩ := by
  have hn : n < (List.finRange 9).length := by rwa [List.length_finRange]
  rw [encRounds, ← List.take_append_getElem hn, List.foldl_concat, List.getElem_finRange]
  rfl

/-- R160: encryption adds `RK[10]` to the block after all nine rounds. -/
theorem encrypt_eq_encRounds (ls : Block → Block) (rk : Vector Block Config.nrk) (x : Block) :
    encrypt ls rk x = xorBlock (encRounds ls rk x 9) rk[9] := rfl

/-! ### Encryption and decryption undo each other -/

/-- R165(a). -/
theorem decrypt_encrypt (rk : Vector Block Config.nrk) :
    LeftInverse (decrypt gfMul rk) (encrypt (directLS gfMul) rk) := by
  intro x
  rw [decrypt_eq_rounds, encrypt_eq_rounds, xorBlock_cancel_right, foldr_foldl_cancel (decRound_encRound rk)]

/-- R165(a), the other way round. -/
theorem encrypt_decrypt (rk : Vector Block Config.nrk) :
    RightInverse (decrypt gfMul rk) (encrypt (directLS gfMul) rk) := by
  intro y
  rw [encrypt_eq_rounds, decrypt_eq_rounds, foldl_foldr_cancel (encRound_decRound rk), xorBlock_cancel_right]

/-! ### The fused arrangement of decryption -/

/-- R164: round `i + 2` inverted in the fused arrangement, on the block and the key both passed through L_inv. -/
def fusedDecRound (rk : Vector Block Config.nrk) (i : Fin 8) (z : Block) : Block :=
  xorBlock (transLInv gfMul (transSInv z))
    (transLInv gfMul (rk[i.val + 1]'(Nat.succ_lt_succ (i.isLt.trans (by decide)))))

/-- R164: L_inv is linear, so it takes a round inverted the direct way to the same round in the fused arrangement. -/
theorem fusedDecRound_transLInv (rk : Vector Block Config.nrk) (i : Fin 8) (x : Block) :
    fusedDecRound rk i (transLInv gfMul x) = transLInv gfMul (decRound rk i.succ x) :=
  (transLInv_xor _ _).symm

/-- R164: on the generated tables the fused arrangement runs eight of its rounds between L_inv of the operand without
`RK[10]` and S_inv with `RK[1]`. -/
theorem decryptFused_eq_rounds (rk : Vector Block Config.nrk) (y : Block) :
    decryptFused generateTables rk y =
      xorBlock (transSInv ((List.finRange 8).foldr (fusedDecRound rk) (transLInv gfMul (xorBlock y rk[9])))) rk[0] := by
  simp only [decryptFused, applyLS_tDinv, applyLS_tDec, mulRead_generateTables_eq, decryptKey, transLInv_xor]
  rfl

/-! ### The commands -/

/-- R177, R191: every well-formed command takes effect on a keyed core. -/
theorem exec_keyed {i : Instr} {s : State} (h : Keyed s) (hw : i.wellFormed = true) :
    exec i s = .next (effectOf i s) := by
  obtain ⟨hf, ht, hk⟩ := h
  exact exec_ready hf hw (fun _ => ht) (fun _ => hk)

/-- R191: the tables of a keyed core are ready. -/
theorem Keyed.tready {s : State} (h : Keyed s) : s.tready = true := h.2.1

/-- A write to a block register leaves the core keyed. -/
theorem Keyed.setBlock {s : State} (h : Keyed s) (r : Reg) (x : Block) : Keyed (s.setBlock r x) := by
  simpa [Keyed] using h

section
variable {s : State} (hold : TablesHold s) (h : Keyed s) (rd : Reg)
include hold h

/-- R161: `ENC` on a keyed core with true tables. -/
theorem exec_enc : exec (.enc rd) s = .next (s.setBlock rd (encrypt (directLS gfMul) s.rk (s.block rd))) := by
  rw [exec_keyed h rfl, effectOf, hold h.tready, applyLS_tEnc_eq_directLS]

/-- R163: `DEC` on a keyed core with true tables. -/
theorem exec_dec : exec (.dec rd) s = .next (s.setBlock rd (decrypt gfMul s.rk (s.block rd))) := by
  rw [exec_keyed h rfl, effectOf, mulAt_of_ready hold h.tready]

/-- R161: `ENC` on a register just written: only the block that `ENC` writes remains of the two writes. -/
theorem exec_enc_setBlock (x : Block) :
    exec (.enc rd) (s.setBlock rd x) = .next (s.setBlock rd (encrypt (directLS gfMul) s.rk x)) := by
  rw [exec_enc (hold.setBlock rd x) (h.setBlock rd x), block_setBlock_same, setBlock_rk, setBlock_setBlock]

/-- R163: the same of `DEC`. -/
theorem exec_dec_setBlock (x : Block) :
    exec (.dec rd) (s.setBlock rd x) = .next (s.setBlock rd (decrypt gfMul s.rk x)) := by
  rw [exec_dec (hold.setBlock rd x) (h.setBlock rd x), block_setBlock_same, setBlock_rk, setBlock_setBlock]

end

end Sys2Proof.Machine
end

section
/-! SUPPORT. The statements about the round engine and its commands. -/

namespace Sys2Proof.Machine

/-- Settles O52: the blocks are those after the first rounds, and the pass through `T_ENC` is L after S. -/
theorem encRunsTheTenRounds : Obligations.EncRunsTheTenRounds := by
  unfold Obligations.EncRunsTheTenRounds
  intro rd s hold hkeyed
  refine ⟨_, encRounds (directLS gfMul) s.rk (s.block rd), exec_enc hold hkeyed rd, encRounds_zero ..,
    fun n h => ?round, ?result, onlyBlockChanged_setBlock s rd _⟩
  case round => rw [encRounds_succ _ _ _ h, encRound, directLS]
  case result => rw [block_setBlock_same, encrypt_eq_encRounds]

/-- Settles O53: `DEC` writes the decryption of its operand, which encryption undoes. -/
theorem decGivesTheBlockThatEncryptsToItsOperand : Obligations.DecGivesTheBlockThatEncryptsToItsOperand := by
  unfold Obligations.DecGivesTheBlockThatEncryptsToItsOperand
  intro rd s hold hkeyed
  refine ⟨_, exec_dec hold hkeyed rd, ?_, onlyBlockChanged_setBlock s rd _⟩
  rw [block_setBlock_same, encrypt_decrypt]

/-- Settles O54: the second command reads the keys and tables of the first, and writes back the block
the register held. -/
theorem decUndoesEncAndEncUndoesDec : Obligations.DecUndoesEncAndEncUndoesDec := by
  unfold Obligations.DecUndoesEncAndEncUndoesDec
  intro rd s hold hkeyed
  refine ⟨⟨_, exec_enc hold hkeyed rd, ?decAfterEnc⟩, ⟨_, exec_dec hold hkeyed rd, ?encAfterDec⟩⟩
  case decAfterEnc => rw [exec_dec_setBlock hold hkeyed, decrypt_encrypt, setBlock_block]
  case encAfterDec => rw [exec_enc_setBlock hold hkeyed, encrypt_decrypt, setBlock_block]

/-- Settles O55: each round is undone by its inverse, so the run of rounds is undone by the inverses in the opposite
order. -/
theorem encryptAndDecryptAreInversePermutations : Obligations.EncryptAndDecryptAreInversePermutations := by
  unfold Obligations.EncryptAndDecryptAreInversePermutations
  intro rk
  refine ⟨decrypt_encrypt rk, encrypt_decrypt rk, ⟨(decrypt_encrypt rk).injective, (encrypt_decrypt rk).surjective⟩,
    fun x => ?_⟩
  rw [applyLS_tEnc_eq_directLS]

/-- Settles O56: L_inv of the running block of the direct form is the running block of the fused one, round by round. -/
theorem fusedDecryptionEqualsDecryption : Obligations.FusedDecryptionEqualsDecryption := by
  unfold Obligations.FusedDecryptionEqualsDecryption
  intro rk y
  have hrun : (List.finRange 8).foldr (fusedDecRound rk) (transLInv gfMul (xorBlock y rk[9])) =
      transLInv gfMul ((List.finRange 8).foldr (fun i => decRound rk i.succ) (xorBlock y rk[9])) :=
    List.foldr_hom (transLInv gfMul) (fusedDecRound_transLInv rk)
  rw [decryptFused_eq_rounds, hrun, decrypt_eq_rounds, List.finRange_succ, List.foldr_cons, List.foldr_map, decRound]
  rfl

end Sys2Proof.Machine
end

section
/-! SUPPORT. The laws of a word refused by its extra check, of what every step answers, and of a run on a faulted core. -/

namespace Sys2Proof

/-- R60: a word with the opcode of a row whose mask it passes is refused by the extra check, if the command the row builds
does not pass it. -/
theorem decode_extraCheck_of_row {row : Row} {w : Word} (hr : row ∈ opcodeMap) (ho : row.opcode = (fieldsOf w).op)
    (hm : w &&& row.mask = row.pattern) (hw : (row.build (fieldsOf w)).wellFormed = false) :
    decode w = .error .extraCheck := by
  simp [decode, ← ho, find?_opcode hr, hm, hw]

/-- R57, R58: the word of an ill-formed command fits the command's own row and stops at the extra check. -/
theorem decode_encode_illFormed {i : Instr} (hw : i.wellFormed = false) : decode (encode i) = .error .extraCheck := by
  obtain ⟨n, row, hn, ho, hm, hb⟩ := encodeRow i
  exact decode_extraCheck_of_row (List.mem_of_getElem? hn) ho hm (by rw [hb]; exact hw)

namespace Machine

/-- R177 step 2, for a command whose operands no legal word carries. -/
theorem exec_illFormed {i : Instr} {s : State} (h : s.faulted = false) (hw : i.wellFormed = false) :
    exec i s = .next (enterFault .illegalCommand (encode i) s) := by
  rw [exec_eq_issue, issue_illFormed h hw]

/-! ### What a step answers -/

/-- R186, R200: a step without a move of the host. -/
theorem step_idle {s : State} (hs : s.inputs = []) : step s = .next s := by
  simp [step, takeInput_nil hs]

/-- R190: a step on a reset move. -/
theorem step_reset {s : State} {d : Draw} {rest : List HostMove} (hs : s.inputs = .reset d :: rest) :
    step s = .next (applyReset d { s with inputs := rest }) := by
  simp [step, takeInput_cons hs]

/-- R177: every branch of the order of checks ends in a next state. -/
theorem exists_issue_eq_next (i : Instr) (need : Readiness) (f : State → State) (s : State) :
    ∃ t, issue i need f s = .next t := by
  unfold issue
  split_ifs <;> exact ⟨_, rfl⟩

/-- R198: the execution of a command ends in a next state. -/
theorem exists_exec_eq_next (i : Instr) (s : State) : ∃ t, exec i s = .next t := by
  rw [exec_eq_issue]
  exact exists_issue_eq_next i (readinessOf i) (effectOf i) s

/-- R176, R177: a word that does not decode is refused or enters a fault, and both are next states. -/
theorem exists_issueIllegal_eq_next (w : Word) (s : State) : ∃ t, issueIllegal w s = .next t := by
  cases hf : s.faulted with
  | true => exact ⟨_, issueIllegal_faulted hf⟩
  | false => exact ⟨_, issueIllegal_ready hf⟩

/-! ### Runs -/

/-- A run goes on from what its first step answers. -/
theorem run_succ_of_step {M : Host.Core} {s t : M.State} (k : Nat) (h : M.step s = .next t) :
    M.run (k + 1) s = M.run k t := by
  simp [Host.Core.run, h]

end Machine

end Sys2Proof
end

section
/-! SUPPORT. The statements about words a faulted core refuses, ill-formed operands, idle steps and reset moves. -/

namespace Sys2Proof.Machine

/-- Settles O11, by induction on the list of words: each step takes one word and leaves a faulted core. -/
theorem faultedRunChangesNothing : Obligations.FaultedRunChangesNothing := by
  unfold Obligations.FaultedRunChangesNothing
  intro ws rest
  induction ws with
  | nil =>
    rintro s - rfl
    rfl
  | cons w ws ih =>
    intro s hf hs
    have hstep : step s = .next { s with inputs := ws.map HostMove.command ++ rest } := step_faulted hs hf
    exact (run_succ_of_step (M := core) ws.length hstep).trans (ih _ hf rfl)

/-- Settles O7, by the law of a step on a word that decodes. -/
theorem stepRunsTheDecodedCommand : Obligations.StepRunsTheDecodedCommand := by
  unfold Obligations.StepRunsTheDecodedCommand
  exact fun _ _ _ _ hs hd => step_of_decode_ok hs hd

/-- Settles O10: a faulted core refuses words that decode and words that do not, and a reset move clears `STATUS`. -/
theorem faultedCoreRefusesUntilReset : Obligations.FaultedCoreRefusesUntilReset := by
  unfold Obligations.FaultedCoreRefusesUntilReset
  intro s rest hf
  exact ⟨fun w hs => step_faulted hs hf, fun d hs => ⟨_, step_reset hs, applyReset_faulted ..⟩⟩

/-- Settles O6: the word passes the mask of its row, so the extra check is what refuses it, and `exec` makes the same
check. -/
theorem illFormedOperandsAreIllegalCommands : Obligations.IllFormedOperandsAreIllegalCommands := by
  unfold Obligations.IllFormedOperandsAreIllegalCommands
  exact fun _ _ hw => ⟨decode_encode_illFormed hw, fun hf => exec_illFormed hf hw⟩

/-- Settles O12, by the law of an idle step. -/
theorem idleCoreHoldsItsState : Obligations.IdleCoreHoldsItsState := by
  unfold Obligations.IdleCoreHoldsItsState
  exact fun _ hs => step_idle hs

/-- Settles O13: the step answers the reset state with the move's own draw in it. -/
theorem resetMoveLeavesTheResetState : Obligations.ResetMoveLeavesTheResetState := by
  unfold Obligations.ResetMoveLeavesTheResetState
  intro s d rest hs
  exact ⟨_, step_reset hs, rfl, rfl, rfl, rfl, rfl, rfl, rfl, rfl⟩

/-- Settles O15: an idle step, a command's execution, an illegal word and a reset each end in a next state. -/
theorem everyStepAnswersANextState : Obligations.EveryStepAnswersANextState := by
  unfold Obligations.EveryStepAnswersANextState
  intro s
  rcases hs : s.inputs with _ | ⟨w | d, rest⟩
  · exact ⟨s, step_idle hs⟩
  · cases hd : decode w with
    | ok i =>
      rw [step_of_decode_ok hs hd]
      exact exists_exec_eq_next i _
    | error e =>
      rw [step_of_decode_error hs hd]
      exact exists_issueIllegal_eq_next w _
  · exact ⟨_, step_reset hs⟩

end Sys2Proof.Machine
end
